-- ==== Sys2Proof/Word.lean ====
section
/-! DEFINITION. The one datum width of the CORE and the index type of its register file. -/

namespace Sys2Proof

/-- Every datum the CORE moves is one unsigned byte: memory cells, register values, immediates,
return addresses and FL (R38, R8). -/
abbrev Byte := BitVec 8

/-- A checked register index 0..7 (R20). An operand byte becomes one only through `regIndex` (R11). -/
abbrev RegIndex := Fin 8

end Sys2Proof
end

