-- ==== Sys2Proof/Machine/Flags.lean ====
section
/-! DEFINITION. The comparison flag FL: its bits, the test the conditional jumps make, and the value
CMP computes (R27, R73). -/

namespace Sys2Proof.Machine

/-- LESS (L): bit 2, mask 0x04 (R27). -/
def flLess : Byte := 0x04#8

/-- GREATER (G): bit 1, mask 0x02 (R27). -/
def flGreater : Byte := 0x02#8

/-- EQUAL (E): bit 0, mask 0x01 (R27). -/
def flEqual : Byte := 0x01#8

/-- `fl[0] = 1`: the one bit of FL that JEQ and JNE read (R28, R93, R94). -/
def equalBit (fl : Byte) : Bool := fl.getLsbD 0

/-- The FL value of a comparison: unsigned, all 8 bits, exactly one bit set (R73). -/
def compareFlags (u v : Byte) : Byte :=
  if u.toNat < v.toNat then flLess else if v.toNat < u.toNat then flGreater else flEqual

end Sys2Proof.Machine
end

