-- ==== Sys2Proof/Syntax.lean ====
section
/-! DEFINITION. The 13 instructions of the dispatch table, one constructor per row of the opcode table
(R2, R54). -/

namespace Sys2Proof

/-- An instruction with its operand bytes as they stand in memory (R52, R53).
A register operand is the WHOLE byte, not masked to three bits: a byte above 7 is a legal encoding
whose execution raises AddressOutOfRange (R53, R56), so it must be expressible here. -/
inductive Instr where
  /-- LDI, format RI: `82 rr ii` (R65). -/
  | ldi (r imm : Byte)
  /-- PRN, format R: `47 rr` (R66). -/
  | prn (r : Byte)
  /-- MUL, format RR: `A2 aa bb` (R78). -/
  | mul (a b : Byte)
  /-- HLT, format N: `01` (R96). -/
  | hlt
  /-- PUSH, format R: `45 rr` (R83). -/
  | push (r : Byte)
  /-- POP, format R: `46 rr` (R84). -/
  | pop (r : Byte)
  /-- ADD, format RR: `A0 aa bb` (R77). -/
  | add (a b : Byte)
  /-- CALL, format R: `50 rr` (R89). -/
  | call (r : Byte)
  /-- RET, format N: `11` (R90). -/
  | ret
  /-- CMP, format RR: `A7 aa bb` (R79). -/
  | cmp (a b : Byte)
  /-- JMP, format R: `54 rr` (R92). -/
  | jmp (r : Byte)
  /-- JNE, format R: `56 rr` (R94). -/
  | jne (r : Byte)
  /-- JEQ, format R: `55 rr` (R93). -/
  | jeq (r : Byte)
deriving DecidableEq, Repr

end Sys2Proof
end

