-- ==== Sys2Proof/Decode.lean ====
section
/-! DEFINITION. The opcode fields, the dispatch table, the decoder (total on any bytes, rejecting by
name) and the encoder (R50 to R56). -/

namespace Sys2Proof

/-- The 13 handlers an opcode byte can select (R54). -/
inductive Handler where
  | ldi | prn | mul | hlt | push | pop | add | call | ret | cmp | jmp | jne | jeq
deriving DecidableEq, Repr

/-- Why the decoder rejects a sequence of bytes. -/
inductive DecodeError where
  /-- There is no byte to read as an opcode (R57: the fetch itself is out of range). -/
  | noOpcode
  /-- The byte has no handler (R55). -/
  | unknownOpcode (op : Byte)
  /-- Operand byte k (1 or 2, at address pc + k) is not there (R37, R52). -/
  | missingOperand (k : Nat)
deriving DecidableEq, Repr

/-! ### The fields of the opcode byte -/

/-- `op[7:6]`, the operand count (R50). -/
def operandCount (op : Byte) : Nat := (op.extractLsb 7 6).toNat

/-- `op[4]`, the PC-mutating bit (R50). -/
def pcMutating (op : Byte) : Bool := op.getLsbD 4

/-! ### The dispatch table -/

/-- The opcode byte of each handler, in binary as R50's table writes it. -/
def Handler.opcode : Handler → Byte
  | .ldi => 0b10000010#8
  | .prn => 0b01000111#8
  | .mul => 0b10100010#8
  | .hlt => 0b00000001#8
  | .push => 0b01000101#8
  | .pop => 0b01000110#8
  | .add => 0b10100000#8
  | .call => 0b01010000#8
  | .ret => 0b00010001#8
  | .cmp => 0b10100111#8
  | .jmp => 0b01010100#8
  | .jne => 0b01010110#8
  | .jeq => 0b01010101#8

/-- The rows of the dispatch table, in the opcode table's order. -/
def handlers : List Handler :=
  [.ldi, .prn, .mul, .hlt, .push, .pop, .add, .call, .ret, .cmp, .jmp, .jne, .jeq]

/-- The dispatch table: the match is on all 8 bits of the opcode byte (R54).
A byte with no row has no handler (R55). -/
def dispatch (op : Byte) : Option Handler :=
  handlers.find? fun h => h.opcode == op

/-! ### Decoding -/

/-- Format R: one operand byte after the opcode (R52). -/
def takeOne (f : Byte → Instr) : List Byte → Except DecodeError (Instr × List Byte)
  | [] => .error (.missingOperand 1)
  | a :: rest => .ok (f a, rest)

/-- Formats RR and RI: two operand bytes after the opcode, at ascending addresses (R38, R52). -/
def takeTwo (f : Byte → Byte → Instr) : List Byte → Except DecodeError (Instr × List Byte)
  | [] => .error (.missingOperand 1)
  | [_] => .error (.missingOperand 2)
  | a :: b :: rest => .ok (f a b, rest)

/-- The operand bytes of each handler (R52). -/
def decodeOperands : Handler → List Byte → Except DecodeError (Instr × List Byte)
  | .ldi, bs => takeTwo .ldi bs
  | .prn, bs => takeOne .prn bs
  | .mul, bs => takeTwo .mul bs
  | .hlt, bs => .ok (.hlt, bs)
  | .push, bs => takeOne .push bs
  | .pop, bs => takeOne .pop bs
  | .add, bs => takeTwo .add bs
  | .call, bs => takeOne .call bs
  | .ret, bs => .ok (.ret, bs)
  | .cmp, bs => takeTwo .cmp bs
  | .jmp, bs => takeOne .jmp bs
  | .jne, bs => takeOne .jne bs
  | .jeq, bs => takeOne .jeq bs

/-- The decoder: the instruction at the head of the bytes and the bytes after it, or the reason
there is none (R50 to R56). -/
def decode : List Byte → Except DecodeError (Instr × List Byte)
  | [] => .error .noOpcode
  | op :: bs =>
    match dispatch op with
    | none => .error (.unknownOpcode op)
    | some h => decodeOperands h bs

/-! ### Encoding -/

/-- The handler an instruction selects. -/
def Instr.handler : Instr → Handler
  | .ldi _ _ => .ldi
  | .prn _ => .prn
  | .mul _ _ => .mul
  | .hlt => .hlt
  | .push _ => .push
  | .pop _ => .pop
  | .add _ _ => .add
  | .call _ => .call
  | .ret => .ret
  | .cmp _ _ => .cmp
  | .jmp _ => .jmp
  | .jne _ => .jne
  | .jeq _ => .jeq

/-- The operand bytes of an instruction, in the order they stand in memory (R52). -/
def Instr.operands : Instr → List Byte
  | .ldi r imm => [r, imm]
  | .prn r => [r]
  | .mul a b => [a, b]
  | .hlt => []
  | .push r => [r]
  | .pop r => [r]
  | .add a b => [a, b]
  | .call r => [r]
  | .ret => []
  | .cmp a b => [a, b]
  | .jmp r => [r]
  | .jne r => [r]
  | .jeq r => [r]

/-- The encoder: the opcode byte followed by the operand bytes (R50, R52, R63). -/
def encode (i : Instr) : List Byte := i.handler.opcode :: i.operands

/-! ### The opcode table's numbering of an instruction's bits -/

/-- The three bytes (the longest instruction, R51) of the number `w` as the opcode table numbers an
instruction's bits: byte k is bits 8k+7..8k, and every bit at or above `nbits` is 0. -/
def tableBytes (nbits w : Nat) : List Byte :=
  [BitVec.ofNat 8 (w % 2 ^ nbits), BitVec.ofNat 8 (w % 2 ^ nbits / 256),
   BitVec.ofNat 8 (w % 2 ^ nbits / 65536)]

/-- The instruction the decoder reads from an instruction whose bits are `w`. -/
def decodeTableWord (nbits w : Nat) : Option Instr :=
  match decode (tableBytes nbits w) with
  | .ok (i, _) => some i
  | .error _ => none

end Sys2Proof
end

