-- ==== Sys2Proof/Config.lean ====
section
/-! DEFINITION. The parameters of R7: the constants of this hardware, and the one parameter the spec
leaves OPEN, FL_RESET, as a constant with no body. -/

namespace Sys2Proof.Config

/-- MEM_SIZE: 256 cells, addresses 0..255 (R7, R36). -/
abbrev memSize : Nat := 256

/-- NREG: 8 registers, indices 0..7 (R7, R20). -/
abbrev nreg : Nat := 8

/-- SP_INDEX: register 7 is the stack pointer (R7, R22). -/
abbrev spIndex : RegIndex := 7

/-- SP_INIT: 0xF4, the stack pointer at construction and the underflow bound (R7, R23, R81). -/
abbrev spInit : Byte := 0xF4#8

/-- PC_RESET: execution starts at address 0 (R7, R25). -/
abbrev pcReset : Nat := 0

/-- The last value of the program counter's type, 258 (R7, R24; the spec's decision D6). -/
abbrev pcMax : Nat := 258

/-- GPR_RESET: r0..r6 at construction (R7, R23).
DESIGN CHOICE of the spec (D2), log entry 2. -/
abbrev gprReset : Byte := 0x00#8

/-- MEM_FILL: what a cell that nothing has loaded or written reads as (R7, R19).
DESIGN CHOICE of the spec (D3), log entry 3. -/
abbrev memFill : Byte := 0x00#8

/-- FL_RESET: OPEN, any 8-bit value, fixed for the run (R7, R29, D4; log entry 1).
A free value: no body can be unfolded, so a statement about it holds whatever it is. -/
opaque flReset : Byte

/-- EXIT_OK: the exit status of a run that ended halted (R7, R113). -/
abbrev exitOk : Nat := 0

/-- EXIT_FAULT: the exit status of a run that ended faulted (R7, R113).
The source says only "non-zero"; 1 is a DESIGN CHOICE of the spec (D15), log entry 17. -/
abbrev exitFault : Nat := 1

end Sys2Proof.Config
end

