-- ==== Sys2Proof/Machine/State.lean ====
section
/-! DEFINITION. The state of the CORE as plain data, the fault record, the reasons a step can stop, and
the state after reset (10_state.md). -/

namespace Sys2Proof.Machine

/-- The memory as its non-fill cells: (address, byte) pairs with strictly rising addresses below 256
and no entry equal to `Config.memFill`, which is what an unlisted address reads as (R18, R19).
`Memory.wf` in Ops.lean is this form. -/
abbrev Memory := List Host.Cell

/-- The names of the five fatal errors (R99). -/
inductive FaultCode where
  /-- A fetched byte has no handler. -/
  | unknownOpcode
  /-- A memory or register access outside its bounds. -/
  | addressOutOfRange
  /-- POP or RET with `x[7] ≥ 0xF4`. -/
  | stackUnderflow
  /-- ALU DIV with a zero divisor register. No opcode reaches it (R75). -/
  | divisionByZero
  /-- The ALU invoked with a select outside its five operations. No opcode reaches it (R74). -/
  | unsupportedAluOperation
deriving DecidableEq, Repr

/-- What `raise E(info)` names: the error and its information (R12). -/
structure Raise where
  code : FaultCode
  /-- The faulting address, register index, stack-pointer value, return address, divisor register,
  opcode value or operation select (R99); an integer, since a stack address may be -1 (R80). -/
  info : Int
deriving DecidableEq, Repr

/-- The fault record (R31). -/
structure FaultRecord where
  code : FaultCode
  /-- The value of `pc` at the faulting step. -/
  pc : Nat
  /-- The byte at `pc`, or none when the fetch itself faulted. -/
  opcode : Option Byte
  info : Int
deriving DecidableEq, Repr

/-- The architectural state `(mem, x, pc, fl, running, fault)` of R16, and the output sequence `out`
that R32 lists with it. -/
structure State where
  /-- 256 cells of 8 bits (R18). -/
  mem : Memory
  /-- r0..r7; r7 is the stack pointer, the same storage (R20, R22). -/
  x : Vector Byte 8
  /-- The address of the instruction's opcode byte, an integer in 0..258 that never wraps (R24). -/
  pc : Nat
  /-- The comparison flag, 8 bits (R27). -/
  fl : Byte
  /-- True until HLT or a fault clears it (R30). -/
  running : Bool
  /-- None, or the record of the fault that stopped the CORE (R31). -/
  fault : Option FaultRecord
  /-- The values PRN has emitted, oldest first (R32). -/
  out : List Byte
deriving DecidableEq, Repr

/-- Why a step is no step. R61: "if running = false: no step". The five fatal errors are NOT here:
each of them is a next state, with the fault record written (R100). -/
inductive Fault where
  /-- Answered by `step` alone, in a state that HLT stopped: no step applies (R61, R96). Safe: the
  model stops where the CORE stops. -/
  | halted
  /-- Answered by `step` alone, in a state that a fatal error stopped, with the record on the status
  port: no step applies (R61, R100, R102). Safe: the model stops where the CORE stops. -/
  | faulted (r : FaultRecord)
deriving DecidableEq, Repr

/-- What has no meaning in the model. -/
inductive Refusal where
  /-- An instruction with no meaning yet, raised by `exec` alone. No arm of this model answers it.
  Safe: the model stops. -/
  | notModelled (mnemonic : String)
  /-- The load port refuses a program of `n` > 256 bytes: the machine is not constructed (R49).
  Raised by `construct` alone, never by a step. Safe: the CORE refuses it too. -/
  | programTooLong (n : Nat)
deriving DecidableEq, Repr

/-- What executing an instruction, or a step, answers. -/
abbrev Result := Host.Outcome State Fault Refusal

/-- Step 1 of construction (R119): every element at its constructed value, for a given FL_RESET and no
program bytes (10_state.md section 10). -/
def State.constructed (flReset : Byte) : State where
  mem := []
  x := #v[Config.gprReset, Config.gprReset, Config.gprReset, Config.gprReset,
          Config.gprReset, Config.gprReset, Config.gprReset, Config.spInit]
  pc := Config.pcReset
  fl := flReset
  running := true
  fault := none
  out := []

/-- The machine right after reset: construction (R118) with FL_RESET the open parameter and nothing
loaded. -/
def State.reset : State := State.constructed Config.flReset

end Sys2Proof.Machine
end

