-- ==== Sys2Proof/Machine/Ops.lean ====
section
/-! DEFINITION. The shared operations over memory, registers, output and the program counter; taking a
fault; and what the engine does when a handler ends. -/

namespace Sys2Proof.Machine

/-! ### Memory -/

/-- The byte a cell holds; an unlisted address reads as `Config.memFill` (R18, R19). -/
def Memory.read : Memory → Nat → Byte
  | [], _ => Config.memFill
  | (k, v) :: m, a => if k = a then v else Memory.read m a

/-- Set one cell, keeping the canonical form: the fill value is never listed. -/
def Memory.write : Memory → Nat → Byte → Memory
  | [], a, v => if v = Config.memFill then [] else [(a, v)]
  | (k, w) :: m, a, v =>
    if a < k then (if v = Config.memFill then (k, w) :: m else (a, v) :: (k, w) :: m)
    else if a = k then (if v = Config.memFill then m else (a, v) :: m)
    else (k, w) :: Memory.write m a v

/-- The canonical form: addresses below 256 and strictly rising, no entry equal to the fill value. -/
def Memory.wf : Memory → Bool
  | [] => true
  | (k, v) :: m =>
    decide (k < Config.memSize) && (v != Config.memFill) && m.all (fun c => decide (k < c.1))
      && Memory.wf m

/-- Store bytes at ascending addresses from `a` (R38, R49). -/
def Memory.storeBytes (m : Memory) (a : Nat) : List Byte → Memory
  | [] => m
  | b :: bs => Memory.storeBytes (m.write a b) (a + 1) bs

/-- `MemRead(a, 1)` (R10): the address is checked, then one byte is read. -/
def memRead (a : Int) (s : State) : Except Raise Byte :=
  if a < 0 ∨ 255 < a then .error ⟨.addressOutOfRange, a⟩ else .ok (s.mem.read a.toNat)

/-- `MemWrite(a, 1, v)` (R10): the address is checked, then one byte is written. -/
def memWrite (a : Int) (v : Byte) (s : State) : Except Raise State :=
  if a < 0 ∨ 255 < a then .error ⟨.addressOutOfRange, a⟩
  else .ok { s with mem := s.mem.write a.toNat v }

/-- The byte at address `a`, or none when `a` is above 255: what the fault record and the trace port
show (R100, R115). It never faults. -/
def byteAt (s : State) (a : Nat) : Option Byte :=
  if a ≤ 255 then some (s.mem.read a) else none

/-! ### Registers, output and the program counter -/

/-- Read register `i` (R9). -/
def readReg (i : RegIndex) (s : State) : Byte := s.x[i.val]

/-- `x[i] <- v` (R9). Index 7 writes the stack pointer, the same storage (R22). -/
def writeReg (i : RegIndex) (v : Byte) (s : State) : State := { s with x := s.x.set i.val v }

/-- `emit(v)`: append to the output sequence (R9, R32, R111). -/
def emit (v : Byte) (s : State) : State := { s with out := s.out ++ [v] }

/-- `pc <- target` (R9). -/
def setPc (target : Nat) (s : State) : State := { s with pc := target }

/-! ### Taking a fault -/

/-- `raise E(info)`: the ONE way a fatal error is taken (R12, R100). The record holds the error, the
`pc` of the step, the byte at `pc` (none when the fetch itself faulted) and the information; `running`
is cleared; nothing else of the state the instruction started from changes, so the fault is precise
and `pc` still holds the faulting instruction's address (D12, log entry 16).
The CORE has no return from a fault and no handler to go to (R98, R102), so no operation undoes this. -/
def raiseFault (s : State) (e : Raise) : State :=
  { s with
    fault := some { code := e.code, pc := s.pc, opcode := byteAt s s.pc, info := e.info }
    running := false }

/-! ### The end of a handler -/

/-- The engine's advance after a handler completes (R60): a static test of `op[4]`, then
`pc + op[7:6] + 1`. -/
def advance (op : Byte) (s : State) : State :=
  if pcMutating op then s else setPc (s.pc + operandCount op + 1) s

/-- How every instruction ends. A handler that completed with state `t` is followed by the engine's
advance (R60); one that raised leaves the state it started from, with the fault taken (R12, R100). -/
def complete (h : Handler) (s : State) : Except Raise State → Result
  | .ok t => .next (advance h.opcode t)
  | .error e => .next (raiseFault s e)

end Sys2Proof.Machine
end

