-- ==== Sys2Proof/Machine/Operands.lean ====
section
/-! DEFINITION. Operand checks: the register index, the stack-pointer adjustment, the underflow guard
and the return address (R11, R53, R80, R81, R89). -/

namespace Sys2Proof.Machine

/-- `RegIndex(i)` (R11): the whole operand byte is the index, not masked to three bits (R53). -/
def regIndex (v : Byte) : Except Raise RegIndex :=
  if h : v.toNat < Config.nreg then .ok ⟨v.toNat, h⟩ else .error ⟨.addressOutOfRange, v.toNat⟩

/-- `x[7]` (R22). -/
def stackPointer (s : State) : Byte := readReg Config.spIndex s

/-- A stack adjustment by `d` (+1 or -1) of the pointer value `sp`, computed as an unbounded integer:
a result outside 0..255 raises, and a result inside is the new 8-bit pointer (R80). It never wraps. -/
def adjustStack (sp : Byte) (d : Int) : Except Raise Byte :=
  if (sp.toNat : Int) + d < 0 ∨ 255 < (sp.toNat : Int) + d then
    .error ⟨.addressOutOfRange, (sp.toNat : Int) + d⟩
  else .ok (BitVec.ofInt 8 ((sp.toNat : Int) + d))

/-- The guard of POP and RET (R81): the value of `x[7]` alone is tested. -/
def checkUnderflow (sp : Byte) : Except Raise Unit :=
  if Config.spInit.toNat ≤ sp.toNat then .error ⟨.stackUnderflow, sp.toNat⟩ else .ok ()

/-- CALL's return address as a byte: an address above 255 cannot be stored and raises (R89). -/
def returnAddress (a : Nat) : Except Raise Byte :=
  if 255 < a then .error ⟨.addressOutOfRange, a⟩ else .ok (BitVec.ofNat 8 a)

end Sys2Proof.Machine
end

