-- ==== Sys2Proof/Machine/Alu.lean ====
section
/-! DEFINITION. The ALU block (R67 to R76): its five operations, two of which no opcode issues, and its
defensive check. -/

namespace Sys2Proof.Machine

/-- The ALU's operations (R67; the select's binary encoding is internal, D19). -/
inductive AluOp where
  | add | sub | mul | div | cmp
deriving DecidableEq, Repr

/-- What stands on the ALU's operation-select input: one of the five, or anything else, which the
ALU's defensive check rejects (R74; log entry 8). -/
inductive AluSelect where
  | op (o : AluOp)
  | other (n : Nat)
deriving DecidableEq, Repr

/-- ALU ADD: the sum modulo 256 (R69). -/
def aluAdd (u v : Byte) : Byte := BitVec.ofNat 8 (u.toNat + v.toNat)

/-- ALU SUB: the difference modulo 256 (R70). -/
def aluSub (u v : Byte) : Byte := BitVec.ofInt 8 ((u.toNat : Int) - v.toNat)

/-- ALU MUL: the low 8 bits of the product (R71). -/
def aluMul (u v : Byte) : Byte := BitVec.ofNat 8 (u.toNat * v.toNat)

/-- ALU DIV: the unsigned quotient, rounded toward zero (R72). The divisor is checked before. -/
def aluDiv (u v : Byte) : Byte := BitVec.ofNat 8 (u.toNat / v.toNat)

/-- The ALU: it reads `x[a]` and `x[b]` and produces exactly one effect, a write of `x[a]`, a write of
FL, or a fault (R67). The arithmetic operations write no flag (R76). -/
def alu (sel : AluSelect) (a b : RegIndex) (s : State) : Except Raise State :=
  match sel with
  | .op .add => .ok (writeReg a (aluAdd (readReg a s) (readReg b s)) s)
  | .op .sub => .ok (writeReg a (aluSub (readReg a s) (readReg b s)) s)
  | .op .mul => .ok (writeReg a (aluMul (readReg a s) (readReg b s)) s)
  | .op .div =>
    if (readReg b s).toNat = 0 then .error ⟨.divisionByZero, b.val⟩
    else .ok (writeReg a (aluDiv (readReg a s) (readReg b s)) s)
  | .op .cmp => .ok { s with fl := compareFlags (readReg a s) (readReg b s) }
  | .other n => .error ⟨.unsupportedAluOperation, n⟩

end Sys2Proof.Machine
end

