-- ==== Sys2Proof/Machine/Arith.lean ====
section
/-! DEFINITION. The instructions that use the ALU: MUL, ADD and CMP (R77 to R79). The first operand's
index is checked before the second's. -/

namespace Sys2Proof.Machine

/-- MUL (R78): `x[a] <- (x[a] * x[b]) mod 256`; the engine advances by 3. -/
def execMul (a b : Byte) (s : State) : Result :=
  complete .mul s do
    let i ← regIndex a
    let j ← regIndex b
    alu (.op .mul) i j s

/-- ADD (R77): `x[a] <- (x[a] + x[b]) mod 256`; the engine advances by 3. -/
def execAdd (a b : Byte) (s : State) : Result :=
  complete .add s do
    let i ← regIndex a
    let j ← regIndex b
    alu (.op .add) i j s

/-- CMP (R79): FL, all 8 bits, from the unsigned comparison; the engine advances by 3. -/
def execCmp (a b : Byte) (s : State) : Result :=
  complete .cmp s do
    let i ← regIndex a
    let j ← regIndex b
    alu (.op .cmp) i j s

end Sys2Proof.Machine
end

