-- ==== Sys2Proof/Machine/Control.lean ====
section
/-! DEFINITION. CALL, RET, JMP, JNE, JEQ and HLT (R87 to R97). All but HLT have `op[4] = 1`: each sets
`pc` itself and the engine does not advance after it. -/

namespace Sys2Proof.Machine

/-- CALL (R89): one decrement, the return address `pc + 2` at the new top, and `x[r]` read after the
write of `x[7]` (D9 to D11, log entries 14 and 15). -/
def execCall (r : Byte) (s : State) : Result :=
  complete .call s do
    let i ← regIndex r
    let sp ← adjustStack (stackPointer s) (-1)
    let ra ← returnAddress (s.pc + 2)
    let t ← memWrite sp.toNat ra (writeReg Config.spIndex sp s)
    return setPc (readReg i t).toNat t

/-- RET (R90): the byte on top of the stack becomes `pc`, and the stack pointer is incremented. -/
def execRet (s : State) : Result :=
  complete .ret s do
    let sp := stackPointer s
    checkUnderflow sp
    let v ← memRead sp.toNat s
    let n ← adjustStack sp 1
    return writeReg Config.spIndex n (setPc v.toNat s)

/-- JMP (R92): `pc <- x[r]`. -/
def execJmp (r : Byte) (s : State) : Result :=
  complete .jmp s do
    let i ← regIndex r
    return setPc (readReg i s).toNat s

/-- JNE (R94): taken when `fl[0] = 0`; not taken, it advances by 2 itself (C8). The index is checked on
both paths. -/
def execJne (r : Byte) (s : State) : Result :=
  complete .jne s do
    let i ← regIndex r
    return setPc (if equalBit s.fl then s.pc + 2 else (readReg i s).toNat) s

/-- JEQ (R93): taken when `fl[0] = 1`; not taken, it advances by 2 itself. The index is checked on both
paths. -/
def execJeq (r : Byte) (s : State) : Result :=
  complete .jeq s do
    let i ← regIndex r
    return setPc (if equalBit s.fl then (readReg i s).toNat else s.pc + 2) s

/-- HLT (R96): `running` is cleared; the engine advances by 1. -/
def execHlt (s : State) : Result :=
  complete .hlt s (.ok { s with running := false })

end Sys2Proof.Machine
end

