-- ==== Sys2Proof/Machine/LoadOutput.lean ====
section
/-! DEFINITION. LDI and PRN (R65, R66). -/

namespace Sys2Proof.Machine

/-- LDI (R65): `x[r] <- imm`, 8 bits as they stand; the engine advances by 3. -/
def execLdi (r imm : Byte) (s : State) : Result :=
  complete .ldi s do
    let i ← regIndex r
    return writeReg i imm s

/-- PRN (R66): `emit(x[r])`; the engine advances by 2. -/
def execPrn (r : Byte) (s : State) : Result :=
  complete .prn s do
    let i ← regIndex r
    return emit (readReg i s) s

end Sys2Proof.Machine
end

