-- ==== Sys2Proof/Machine/Stack.lean ====
section
/-! DEFINITION. PUSH and POP (R83, R84). -/

namespace Sys2Proof.Machine

/-- PUSH (R83): the stack pointer is decremented first, and `x[r]` is read after that write, so PUSH r7
stores the decremented pointer (D10, log entry 14); the engine advances by 2. -/
def execPush (r : Byte) (s : State) : Result :=
  complete .push s do
    let i ← regIndex r
    let sp ← adjustStack (stackPointer s) (-1)
    let t := writeReg Config.spIndex sp s
    memWrite sp.toNat (readReg i t) t

/-- POP (R84): underflow is checked, the top is read into `x[r]`, and the increment acts on `x[7]` as it
stands after that write, so POP r7 gives the popped byte plus 1 (D10, log entry 14); the engine
advances by 2. -/
def execPop (r : Byte) (s : State) : Result :=
  complete .pop s do
    let i ← regIndex r
    let sp := stackPointer s
    checkUnderflow sp
    let v ← memRead sp.toNat s
    let t := writeReg i v s
    let n ← adjustStack (stackPointer t) 1
    return writeReg Config.spIndex n t

end Sys2Proof.Machine
end

