-- ==== Sys2Proof/Machine/Dispatch.lean ====
section
/-! DEFINITION. One arm per instruction, each calling that instruction's meaning (R54, R58). -/

namespace Sys2Proof.Machine

def exec (i : Instr) (s : State) : Host.Outcome State Fault Refusal :=
  match i with
  | .ldi r imm => Sys2Proof.Machine.execLdi r imm s
  | .prn r => Sys2Proof.Machine.execPrn r s
  | .mul a b => Sys2Proof.Machine.execMul a b s
  | .hlt => Sys2Proof.Machine.execHlt s
  | .push r => Sys2Proof.Machine.execPush r s
  | .pop r => Sys2Proof.Machine.execPop r s
  | .add a b => Sys2Proof.Machine.execAdd a b s
  | .call r => Sys2Proof.Machine.execCall r s
  | .ret => Sys2Proof.Machine.execRet s
  | .cmp a b => Sys2Proof.Machine.execCmp a b s
  | .jmp r => Sys2Proof.Machine.execJmp r s
  | .jne r => Sys2Proof.Machine.execJne r s
  | .jeq r => Sys2Proof.Machine.execJeq r s

end Sys2Proof.Machine
end

