-- ==== Sys2Proof/Machine/Fetch.lean ====
section
/-! DEFINITION. Fetching the instruction at `pc` (R57, R58, R101), and why a stopped CORE takes no
step. -/

namespace Sys2Proof.Machine

/-- The bytes at `pc`, `pc + 1` and `pc + 2` that exist: memory ends at 255, and an address never
wraps (R37, R52). Nothing is read twice and reading has no side effect (R41), so reading the bytes the
instruction turns out not to have changes nothing. -/
def fetchWindow (s : State) : List Byte :=
  if s.pc + 2 ≤ 255 then [s.mem.read s.pc, s.mem.read (s.pc + 1), s.mem.read (s.pc + 2)]
  else if s.pc + 1 ≤ 255 then [s.mem.read s.pc, s.mem.read (s.pc + 1)]
  else if s.pc ≤ 255 then [s.mem.read s.pc]
  else []

/-- The fault of a step whose instruction cannot be fetched, in the order of R101: the opcode's
address, then the opcode, then the operands' addresses in order. -/
def fetchFault (s : State) : DecodeError → Raise
  | .noOpcode => ⟨.addressOutOfRange, s.pc⟩
  | .unknownOpcode op => ⟨.unknownOpcode, op.toNat⟩
  | .missingOperand k => ⟨.addressOutOfRange, s.pc + k⟩

/-- The instruction at `pc`, or the fault of its fetch. -/
def fetch (s : State) : Except Raise Instr :=
  match decode (fetchWindow s) with
  | .ok (i, _) => .ok i
  | .error e => .error (fetchFault s e)

/-- What a stopped CORE shows in place of a step: halted, or faulted with its record (R15, R61). -/
def stopReason (s : State) : Fault :=
  match s.fault with
  | none => .halted
  | some r => .faulted r

end Sys2Proof.Machine
end

