-- ==== Sys2Proof/Machine/Step.lean ====
section
/-! DEFINITION. One step (R57 to R61), and the host's way to put one instruction where the next step
fetches. -/

namespace Sys2Proof.Machine

/-- One step (R61). A stopped CORE takes none. A running one fetches the instruction at `pc` and
executes it; a fetch that faults takes the fault (R100). -/
def step (s : State) : Host.Outcome State Fault Refusal :=
  if s.running then
    match fetch s with
    | .ok i => exec i s
    | .error e => .next (raiseFault s e)
  else .fault (stopReason s)

/-- The state `s` with the instruction of bits `w` (the opcode table's numbering, bits at or above
`nbits` zero, three bytes) stored where `step` fetches, and the CORE running.
When fewer than three cells remain at `pc`, the instruction is placed at address 0 and `pc` set there. -/
def State.withFetchWord (s : State) (nbits w : Nat) : State :=
  let pc := if s.pc + 2 ≤ 255 then s.pc else 0
  { s with mem := s.mem.storeBytes pc (tableBytes nbits w), pc := pc, running := true }

end Sys2Proof.Machine
end

