-- ==== Sys2Proof/Machine/Ports.lean ====
section
/-! DEFINITION. The CORE's boundary: the program-load port and construction, the status and exit port,
and the read-only trace port (R49, R110 to R119). The output port is the field `out` of State. -/

namespace Sys2Proof.Machine

/-! ### Load and construction -/

/-- The load port: `mem[i] <- b[i]` from address 0, in order; nothing else is written (R49). -/
def load (program : List Byte) (s : State) : State :=
  { s with mem := s.mem.storeBytes 0 program }

/-- Construction from FL_RESET and the program bytes (R118, R119). A program of more than 256 bytes is
refused: the machine is not constructed (R49, D21, log entry 19). -/
def construct (flReset : Byte) (program : List Byte) : Result :=
  if program.length ≤ Config.memSize then .next (load program (State.constructed flReset))
  else .refused (.programTooLong program.length)

/-! ### Status and exit -/

/-- The numeric code of a fatal error on the status port (R99; D14, log entry 17). -/
def FaultCode.number : FaultCode → Nat
  | .unknownOpcode => 1
  | .addressOutOfRange => 2
  | .stackUnderflow => 3
  | .divisionByZero => 4
  | .unsupportedAluOperation => 5

/-- The status port's fault code, 0 when there is no fault (R99). -/
def statusCode (s : State) : Nat :=
  match s.fault with
  | none => 0
  | some r => r.code.number

/-- The exit status: none while the CORE runs, EXIT_OK when it stopped halted, EXIT_FAULT when it
stopped faulted (R113). -/
def exitStatus (s : State) : Option Nat :=
  if s.running then none
  else if s.fault.isSome then some Config.exitFault else some Config.exitOk

/-! ### Trace -/

/-- The snapshot of the trace port (R115). A byte whose address is above 255 is absent. -/
structure TraceSnapshot where
  pc : Nat
  byte0 : Option Byte
  byte1 : Option Byte
  byte2 : Option Byte
  x : Vector Byte 8
deriving DecidableEq, Repr

/-- The trace port: it reads the state, changes nothing and never faults (R115). -/
def traceSnapshot (s : State) : TraceSnapshot where
  pc := s.pc
  byte0 := byteAt s s.pc
  byte1 := byteAt s (s.pc + 1)
  byte2 := byteAt s (s.pc + 2)
  x := s.x

end Sys2Proof.Machine
end

