-- ==== Sys2Proof/WellFormed.lean ====
section
/-! DEFINITION. Which instructions are well formed: a register operand is legal exactly when it is at
most 7, and every immediate is legal (R56). -/

namespace Sys2Proof

/-- R56: "a register index is legal exactly when it is ≤ 7". -/
def regOperandOk (v : Byte) : Bool := decide (v.toNat ≤ 7)

/-- Every register operand of the instruction names a register (R53, R56).
An instruction that fails this check still decodes and runs: it raises AddressOutOfRange (R11). -/
def Instr.wf : Instr → Bool
  | .ldi r _ => regOperandOk r
  | .prn r => regOperandOk r
  | .mul a b => regOperandOk a && regOperandOk b
  | .hlt => true
  | .push r => regOperandOk r
  | .pop r => regOperandOk r
  | .add a b => regOperandOk a && regOperandOk b
  | .call r => regOperandOk r
  | .ret => true
  | .cmp a b => regOperandOk a && regOperandOk b
  | .jmp r => regOperandOk r
  | .jne r => regOperandOk r
  | .jeq r => regOperandOk r

end Sys2Proof
end

