-- ==== Sys2Proof/Safety.lean ====
section
/-! DEFINITION. The terms statements about the CORE are written in: halted, faulted and safe runs, the
state invariant, an instruction's bytes at `pc`, the outcome of a raise, and the live stack. -/

namespace Sys2Proof.Machine

/-! ### How a run ends -/

/-- Stopped by HLT: `running` false and no fault (R15, R117). -/
def Halted (s : State) : Prop := s.running = false ∧ s.fault = none

/-- Stopped by a fatal error: `running` false and a fault record present (R15, R117). -/
def Faulted (s : State) : Prop := s.running = false ∧ s.fault ≠ none

/-- A safe run of `k` steps: every step happens and no fatal error is met (R98). -/
def SafeRun (k : Nat) (s : State) : Prop :=
  ∃ t, Sys2Proof.core.run k s = .next t ∧ t.fault = none

/-! ### The invariant of the state -/

/-- What holds at construction and is kept by every step: memory keeps its canonical form, `pc` stays
in its type (R24), and a fault record, once there, describes the stopped state it stands in (R31,
R100). -/
structure State.Inv (s : State) : Prop where
  memCanonical : s.mem.wf = true
  pcInRange : s.pc ≤ 258
  faultStops : ∀ r, s.fault = some r → s.running = false
  faultPc : ∀ r, s.fault = some r → r.pc = s.pc
  faultOpcode : ∀ r, s.fault = some r → r.opcode = if s.pc ≤ 255 then some (s.mem.read s.pc) else none

/-! ### Fetching -/

/-- The bytes `bs` stand in memory from `pc` on, none of them above address 255 (R52). -/
def BytesAtPc (s : State) (bs : List Byte) : Prop :=
  s.pc + bs.length ≤ 256 ∧ ∀ k (h : k < bs.length), s.mem.read (s.pc + k) = bs[k]

/-- A running CORE with the bytes `bs` at `pc` executes the instruction `i` in its next step. -/
def RunsAs (bs : List Byte) (i : Instr) : Prop :=
  ∀ s : State, s.running = true → BytesAtPc s bs → step s = exec i s

/-- The step's outcome is the raise of `code(info)` in `s` (R12, R100). -/
def raised (s : State) (code : FaultCode) (info : Int) : Result := .next (raiseFault s ⟨code, info⟩)

/-- An instruction with opcode `op` whose operand bytes reach past 255 raises AddressOutOfRange for
the first address that does not exist, 256 (R37, R101). -/
def OperandsPastTopRaise (op : Byte) : Prop :=
  ∀ s : State, s.running = true → s.pc ≤ 255 → s.mem.read s.pc = op →
    255 < s.pc + operandCount op → step s = raised s .addressOutOfRange 256

/-- The instruction left everything but the fault record and `running` as it was (R12). -/
def FaultTaken (s t : State) : Prop := ∃ e, t = raiseFault s e

/-- `running` and the fault record are untouched, unless the instruction took a fault. -/
def ControlKept (s t : State) : Prop :=
  (t.running = s.running ∧ t.fault = s.fault) ∨ FaultTaken s t

/-! ### The live stack -/

/-- The live stack bytes, top first: `mem[x[7]]` up to `mem[0xF3]` (R86). -/
def stackBytes (s : State) : List Byte :=
  (List.range (0xF4 - (s.x[7]).toNat)).map fun k => s.mem.read ((s.x[7]).toNat + k)

/-- Execute instructions in order; none as soon as one of them takes a fault. -/
def execAll : List Instr → State → Option State
  | [], s => some s
  | i :: is, s =>
    match exec i s with
    | .next t => if t.fault = none then execAll is t else none
    | _ => none

/-- R86's instructions: PUSH, POP, CALL and RET, with no direct write of r7 (so not POP r7). -/
def isStackOp : Instr → Bool
  | .push _ => true
  | .pop r => r.toNat != 7
  | .call _ => true
  | .ret => true
  | _ => false

/-- PUSH and CALL push one byte each (R86). -/
def isPush : Instr → Bool
  | .push _ => true
  | .call _ => true
  | _ => false

/-- POP and RET pop one byte each (R86). -/
def isPop : Instr → Bool
  | .pop _ => true
  | .ret => true
  | _ => false

end Sys2Proof.Machine
end

