-- ==== Sys2Proof/Certificates/Slice0/Obligations.lean ====
section
/-! DEFINITION. The statements for the provers, from the numbered rules of spec/.
"Raises E(i)" is `raised s E i`: the next state in which the fault is taken (R12, R100). What that
state is has a statement of its own, FaultTakingIsPrecise; that nothing else changes in it is the
spec's own choice D12 (log entry 16). -/

open Sys2Proof Sys2Proof.Machine

/-! ### Encoding -/

/-- Decode and encode agree, both ways, for every instruction and every operand byte: the decoder
answers `i` with `rest` left over exactly on the bytes of `i` followed by `rest` (30_encoding.md). -/
def Obligations.DecodeIffEncoded : Prop :=
  ∀ (bs : List Byte) (i : Instr) (rest : List Byte),
    decode bs = .ok (i, rest) ↔ bs = encode i ++ rest

/-- Words written out from R50's binary table and the source's byte lists decode to the instructions
they stand for, one per format and family. -/
def Obligations.WrittenWordsDecode : Prop :=
  decode [0b10000010#8, 0#8, 8#8] = .ok (.ldi 0 8, []) ∧
  decode [0b01000111#8, 0#8] = .ok (.prn 0, []) ∧
  decode [0b10100010#8, 0#8, 1#8] = .ok (.mul 0 1, []) ∧
  decode [0b00000001#8] = .ok (.hlt, []) ∧
  decode [0b01000101#8, 2#8] = .ok (.push 2, []) ∧
  decode [0b01000110#8, 3#8] = .ok (.pop 3, []) ∧
  decode [0b10100000#8, 9#8, 8#8] = .ok (.add 9 8, []) ∧
  decode [0b01010000#8, 1#8] = .ok (.call 1, []) ∧
  decode [0b00010001#8] = .ok (.ret, []) ∧
  decode [0b10100111#8, 0#8, 2#8] = .ok (.cmp 0 2, []) ∧
  decode [0b01010100#8, 7#8] = .ok (.jmp 7, []) ∧
  decode [0b01010110#8, 3#8] = .ok (.jne 3, []) ∧
  decode [0b01010101#8, 255#8] = .ok (.jeq 255, []) ∧
  decode [0b10100001#8, 0#8, 1#8] = .error (.unknownOpcode 0xA1#8)

/-- R54: the dispatch table maps the 13 opcode bytes to their handlers and every other byte to none;
the match is on all 8 bits. -/
def Obligations.DispatchTableIsExact : Prop :=
  ∀ (op : Byte) (h : Handler), dispatch op = some h ↔
    (op, h) ∈ [(0x82#8, Handler.ldi), (0x47#8, .prn), (0xA2#8, .mul), (0x01#8, .hlt), (0x45#8, .push),
      (0x46#8, .pop), (0xA0#8, .add), (0x50#8, .call), (0x11#8, .ret), (0xA7#8, .cmp), (0x54#8, .jmp),
      (0x56#8, .jne), (0x55#8, .jeq)]

/-- R51: an instruction is `op[7:6] + 1` bytes long, 1 to 3; operand count 3 belongs to no defined
opcode; the length follows from the first byte alone. -/
def Obligations.LengthFollowsFromOpcode : Prop :=
  (∀ i : Instr, (encode i).length = operandCount i.handler.opcode + 1 ∧ (encode i).length ≤ 3) ∧
  (∀ op : Byte, operandCount op = 3 → dispatch op = none) ∧
  (∀ i j : Instr, (encode i).head? = (encode j).head? → (encode i).length = (encode j).length)

/-! ### The step -/

/-- A step runs the decoded instruction: when the bytes at `pc` decode to `i`, the step is exec of `i`.
Nothing stands around exec in a step: the engine's advance is part of each meaning (R58, R60). -/
def Obligations.StepRunsDecodedInstruction : Prop :=
  ∀ (s : State) (i : Instr) (rest : List Byte), s.running = true →
    decode (fetchWindow s) = .ok (i, rest) → step s = exec i s

/-- The same from memory alone: wherever the encoding of an instruction stands whole at `pc`, a running
CORE executes that instruction, whatever stands after it (R52, R58, R61). -/
def Obligations.EncodedInstructionRuns : Prop :=
  ∀ i : Instr, RunsAs (encode i) i

/-- R57: a step happens only when `running` is true; the opcode it dispatches is the byte at `pc`; with
`pc > 255` it raises AddressOutOfRange(pc) with `opcode` none in the record. -/
def Obligations.FetchReadsOpcodeAtPc : Prop :=
  (∀ s t : State, step s = .next t → s.running = true) ∧
  (∀ s : State, s.running = true → 255 < s.pc →
    ∃ t, step s = .next t ∧ t.running = false ∧
      t.fault = some ⟨.addressOutOfRange, s.pc, none, s.pc⟩) ∧
  (∀ s : State, s.pc ≤ 255 → memRead s.pc s = .ok (s.mem.read s.pc)) ∧
  (∀ (s : State) (i : Instr), fetch s = .ok i →
    s.pc ≤ 255 ∧ dispatch (s.mem.read s.pc) = some i.handler)

/-- R55: exactly 243 bytes have no handler, 0x00, 0xFF, 0xA1 and 0xA3 among them; fetching one is fatal,
the record holds the opcode value and `pc`, and the exit status is not zero. -/
def Obligations.UnknownOpcodeIsFatal : Prop :=
  ((List.range 256).filter fun n => (dispatch (BitVec.ofNat 8 n)).isNone).length = 243 ∧
  (∀ op ∈ [0x00#8, 0xFF#8, 0xA1#8, 0xA3#8], dispatch op = none) ∧
  (∀ s : State, s.running = true → s.pc ≤ 255 → dispatch (s.mem.read s.pc) = none →
    ∃ t, step s = .next t ∧ t.running = false ∧
      t.fault = some ⟨.unknownOpcode, s.pc, some (s.mem.read s.pc), (s.mem.read s.pc).toNat⟩ ∧
      exitStatus t ≠ none ∧ exitStatus t ≠ some 0)

/-- Operand bytes are fetched in address order after the opcode is known, and the first one above 255
raises AddressOutOfRange of its address, before any register index is looked at.
The order is the spec's choice D13 (log entry 16). -/
def Obligations.FirstMissingOperandFaults : Prop :=
  ∀ (s : State) (h : Handler) (k : Nat), s.running = true → s.pc + k ≤ 256 → 255 < s.pc + k →
    1 ≤ k → k ≤ operandCount h.opcode → dispatch (s.mem.read s.pc) = some h →
    step s = raised s .addressOutOfRange ((s.pc + k : Nat) : Int)

/-- A stopped CORE takes no step, and what it shows is whether it halted or the fault it stopped with.
That the model answers an outcome of its own there is a DESIGN CHOICE (log entry 4). -/
def Obligations.StoppedCoreTakesNoStep : Prop :=
  ∀ s : State, s.running = false →
    (s.fault = none → step s = .fault .halted) ∧
    (∀ r, s.fault = some r → step s = .fault (.faulted r))

/-- A running CORE always steps: no instruction, operand or memory content makes the model stop
without a state, for each of the 13 instructions and for every fetch that faults. -/
def Obligations.RunningCoreAlwaysSteps : Prop :=
  (∀ (i : Instr) (s : State), ∃ t, exec i s = .next t) ∧
  (∀ s : State, s.running = true → ∃ t, step s = .next t)

/-- A fault is precise: when a step writes a fault record, it changes nothing but the record and
`running`; the record holds the step's `pc` and the byte there, or none when the fetch itself faulted;
and `running` is false after it. Precision is the spec's choice D12 (log entry 16). -/
def Obligations.FaultTakingIsPrecise : Prop :=
  ∀ (s t : State) (r : FaultRecord), s.fault = none → step s = .next t → t.fault = some r →
    t = { s with fault := some r, running := false } ∧ r.pc = s.pc ∧
    r.opcode = if s.pc ≤ 255 then some (s.mem.read s.pc) else none

/-- Only HLT and a fatal error end a run, and nothing sets `running` true again: a state that steps was
running; and a step that leaves `running` false either fetched HLT's byte 0x01 and recorded no fault, or
took a fault (R30). -/
def Obligations.RunEndsOnlyByHaltOrFault : Prop :=
  ∀ s t : State, step s = .next t → s.running = true ∧
    ((t.running = true ∧ t.fault = s.fault) ∨
      (t.running = false ∧ t.fault = s.fault ∧ s.pc ≤ 255 ∧ s.mem.read s.pc = 0x01#8) ∨
      FaultTaken s t)

/-- No program can raise DivisionByZero or UnsupportedALUOperation: a record a step writes has one of
the other three codes. That SUB and DIV have no opcode is the spec's choice D18 (log entry 12). -/
def Obligations.StepNeverRaisesAluFaults : Prop :=
  ∀ (s t : State) (r : FaultRecord), s.fault = none → step s = .next t → t.fault = some r →
    r.code = .unknownOpcode ∨ r.code = .addressOutOfRange ∨ r.code = .stackUnderflow

/-! ### Invariants -/

/-- Every step keeps the state invariant: memory's canonical form, `pc` in 0..258, and a fault record
that describes the stopped state it stands in. -/
def Obligations.StepKeepsStateInvariant : Prop :=
  ∀ s t : State, s.Inv → step s = .next t → t.Inv

/-- The invariant holds right after reset, and of every machine the load port can construct. -/
def Obligations.ConstructionMeetsInvariant : Prop :=
  State.reset.Inv ∧
  ∀ (flReset : Byte) (program : List Byte) (s : State), construct flReset program = .next s → s.Inv

/-- `pc` never passes 256, and reaches 256 only past an instruction that ends at address 255: HLT at
255, PRN, PUSH or POP at 254, LDI, ADD, MUL or CMP at 253, or a JEQ or JNE at 254 that is not taken.
The range and the absence of wrap are the spec's choice D6 (log entry 5). -/
def Obligations.PcPasses255OnlyToEndOfMemory : Prop :=
  ∀ s t : State, s.pc ≤ 256 → step s = .next t →
    t.pc ≤ 256 ∧
    (t.pc = 256 → s.pc = 256 ∨
      (s.pc = 255 ∧ s.mem.read 255 = 0x01#8) ∨
      (s.pc = 254 ∧ s.mem.read 254 ∈ [0x47#8, 0x45#8, 0x46#8]) ∨
      (s.pc = 253 ∧ s.mem.read 253 ∈ [0x82#8, 0xA0#8, 0xA2#8, 0xA7#8]) ∨
      (s.pc = 254 ∧ s.mem.read 254 = 0x55#8 ∧ s.fl.getLsbD 0 = false) ∨
      (s.pc = 254 ∧ s.mem.read 254 = 0x56#8 ∧ s.fl.getLsbD 0 = true))

/-- Whatever FL_RESET is, FL stays that value or is exactly one of 0x04, 0x02 and 0x01, and a completed
CMP makes it one of the three. Bits 7..3 are the spec's choice D5 (log entry 6). -/
def Obligations.FlagIsResetValueOrOneHot : Prop :=
  (∀ (flReset : Byte) (s t : State), s.fl = flReset ∨ s.fl ∈ [0x04#8, 0x02#8, 0x01#8] →
    step s = .next t → t.fl = flReset ∨ t.fl ∈ [0x04#8, 0x02#8, 0x01#8]) ∧
  (∀ (a b : Byte) (s t : State), s.fault = none → exec (.cmp a b) s = .next t → t.fault = none →
    t.fl ∈ [0x04#8, 0x02#8, 0x01#8])

/-! ### One statement per instruction: where it runs, its effect, and where it raises -/

/-- R65, LDI. -/
def Obligations.LdiLoadsImmediate : Prop :=
  (∀ r imm, RunsAs [0x82#8, r, imm] (.ldi r imm)) ∧
  (∀ (s : State) (r imm : Byte) (h : r.toNat < 8),
    exec (.ldi r imm) s = .next { s with x := s.x.set r.toNat imm, pc := s.pc + 3 }) ∧
  (∀ (s : State) (r imm : Byte), 7 < r.toNat →
    exec (.ldi r imm) s = raised s .addressOutOfRange r.toNat) ∧
  OperandsPastTopRaise 0x82#8

/-- R66, PRN. -/
def Obligations.PrnEmitsRegister : Prop :=
  (∀ r, RunsAs [0x47#8, r] (.prn r)) ∧
  (∀ (s : State) (r : Byte) (h : r.toNat < 8),
    exec (.prn r) s = .next { s with out := s.out ++ [s.x[r.toNat]], pc := s.pc + 2 }) ∧
  (∀ (s : State) (r : Byte), 7 < r.toNat → exec (.prn r) s = raised s .addressOutOfRange r.toNat) ∧
  OperandsPastTopRaise 0x47#8

/-- ADD. That a sum above 255 wraps modulo 256 is the spec's choice D1 (log entry 11). -/
def Obligations.AddWritesSumModulo256 : Prop :=
  (∀ a b, RunsAs [0xA0#8, a, b] (.add a b)) ∧
  (∀ (s : State) (a b : Byte) (ha : a.toNat < 8) (hb : b.toNat < 8),
    exec (.add a b) s = .next { s with
      x := s.x.set a.toNat (BitVec.ofNat 8 (((s.x[a.toNat]).toNat + (s.x[b.toNat]).toNat) % 256))
      pc := s.pc + 3 }) ∧
  (∀ (s : State) (a b : Byte), 7 < a.toNat → exec (.add a b) s = raised s .addressOutOfRange a.toNat) ∧
  (∀ (s : State) (a b : Byte), a.toNat < 8 → 7 < b.toNat →
    exec (.add a b) s = raised s .addressOutOfRange b.toNat) ∧
  OperandsPastTopRaise 0xA0#8

/-- MUL. That a product above 255 wraps modulo 256 is the spec's choice D1 (log entry 11). -/
def Obligations.MulWritesProductModulo256 : Prop :=
  (∀ a b, RunsAs [0xA2#8, a, b] (.mul a b)) ∧
  (∀ (s : State) (a b : Byte) (ha : a.toNat < 8) (hb : b.toNat < 8),
    exec (.mul a b) s = .next { s with
      x := s.x.set a.toNat (BitVec.ofNat 8 (((s.x[a.toNat]).toNat * (s.x[b.toNat]).toNat) % 256))
      pc := s.pc + 3 }) ∧
  (∀ (s : State) (a b : Byte), 7 < a.toNat → exec (.mul a b) s = raised s .addressOutOfRange a.toNat) ∧
  (∀ (s : State) (a b : Byte), a.toNat < 8 → 7 < b.toNat →
    exec (.mul a b) s = raised s .addressOutOfRange b.toNat) ∧
  OperandsPastTopRaise 0xA2#8

/-- CMP. The comparison is unsigned and all 8 bits of FL are written; the zero bits 7..3 and the
signedness are the spec's choices D5 and D17 (log entry 6). -/
def Obligations.CmpSetsFlagFromOrder : Prop :=
  (∀ a b, RunsAs [0xA7#8, a, b] (.cmp a b)) ∧
  (∀ (s : State) (a b : Byte) (ha : a.toNat < 8) (hb : b.toNat < 8),
    exec (.cmp a b) s = .next { s with
      fl := if (s.x[a.toNat]).toNat < (s.x[b.toNat]).toNat then 0x04#8
        else if (s.x[b.toNat]).toNat < (s.x[a.toNat]).toNat then 0x02#8 else 0x01#8
      pc := s.pc + 3 }) ∧
  (∀ (s : State) (a b : Byte), 7 < a.toNat → exec (.cmp a b) s = raised s .addressOutOfRange a.toNat) ∧
  (∀ (s : State) (a b : Byte), a.toNat < 8 → 7 < b.toNat →
    exec (.cmp a b) s = raised s .addressOutOfRange b.toNat) ∧
  OperandsPastTopRaise 0xA7#8

/-- PUSH: decrement, then store `x[r]` as it stands after the decrement, so PUSH r7 stores the
decremented pointer. That order, the check instead of a wrap and the absence of an overflow check are
the spec's choices D10, D7 and D29 (log entries 14 and 13). -/
def Obligations.PushStoresAtDecrementedPointer : Prop :=
  (∀ r, RunsAs [0x45#8, r] (.push r)) ∧
  (∀ (s : State) (r : Byte) (h : r.toNat < 8), 1 ≤ (s.x[7]).toNat →
    exec (.push r) s = .next { s with
      x := s.x.set 7 (s.x[7] - 1#8)
      mem := s.mem.write ((s.x[7]).toNat - 1) ((s.x.set 7 (s.x[7] - 1#8))[r.toNat])
      pc := s.pc + 2 }) ∧
  (∀ (s : State) (r : Byte), 7 < r.toNat → exec (.push r) s = raised s .addressOutOfRange r.toNat) ∧
  (∀ (s : State) (r : Byte), r.toNat < 8 → s.x[7] = 0#8 →
    exec (.push r) s = raised s .addressOutOfRange (-1)) ∧
  OperandsPastTopRaise 0x45#8

/-- POP: the top goes to `x[r]`, then `x[7]` as it stands is incremented, so POP r7 gives the popped byte
plus 1, and raises when that byte is 0xFF. The underflow test on the value of `x[7]`, that order and the
range check are the spec's choices D8, D10 and D7 (log entries 13 and 14). -/
def Obligations.PopLoadsTopAndIncrements : Prop :=
  (∀ r, RunsAs [0x46#8, r] (.pop r)) ∧
  (∀ (s : State) (r : Byte) (h : r.toNat < 8), r.toNat ≠ 7 → (s.x[7]).toNat < 0xF4 →
    exec (.pop r) s = .next { s with
      x := (s.x.set r.toNat (s.mem.read (s.x[7]).toNat)).set 7 (s.x[7] + 1#8)
      pc := s.pc + 2 }) ∧
  (∀ (s : State), (s.x[7]).toNat < 0xF4 → s.mem.read (s.x[7]).toNat ≠ 0xFF#8 →
    exec (.pop 7#8) s = .next { s with
      x := s.x.set 7 (s.mem.read (s.x[7]).toNat + 1#8)
      pc := s.pc + 2 }) ∧
  (∀ (s : State) (r : Byte), 7 < r.toNat → exec (.pop r) s = raised s .addressOutOfRange r.toNat) ∧
  (∀ (s : State) (r : Byte), r.toNat < 8 → 0xF4 ≤ (s.x[7]).toNat →
    exec (.pop r) s = raised s .stackUnderflow (s.x[7]).toNat) ∧
  (∀ (s : State), (s.x[7]).toNat < 0xF4 → s.mem.read (s.x[7]).toNat = 0xFF#8 →
    exec (.pop 7#8) s = raised s .addressOutOfRange 256) ∧
  OperandsPastTopRaise 0x46#8

/-- CALL: one decrement, the return address `pc + 2` at the new top, and the jump to `x[r]` as it stands
after the write of `x[7]`. A return address above 255 raises. These are the spec's choices D9, D10, D11
and D7 (log entries 13, 14 and 15). -/
def Obligations.CallPushesReturnAddressAndJumps : Prop :=
  (∀ r, RunsAs [0x50#8, r] (.call r)) ∧
  (∀ (s : State) (r : Byte) (h : r.toNat < 8), 1 ≤ (s.x[7]).toNat → s.pc + 2 ≤ 255 →
    exec (.call r) s = .next { s with
      x := s.x.set 7 (s.x[7] - 1#8)
      mem := s.mem.write ((s.x[7]).toNat - 1) (BitVec.ofNat 8 (s.pc + 2))
      pc := ((s.x.set 7 (s.x[7] - 1#8))[r.toNat]).toNat }) ∧
  (∀ (s : State) (r : Byte), 7 < r.toNat → exec (.call r) s = raised s .addressOutOfRange r.toNat) ∧
  (∀ (s : State) (r : Byte), r.toNat < 8 → s.x[7] = 0#8 →
    exec (.call r) s = raised s .addressOutOfRange (-1)) ∧
  (∀ (s : State) (r : Byte), r.toNat < 8 → 1 ≤ (s.x[7]).toNat → 255 < s.pc + 2 →
    exec (.call r) s = raised s .addressOutOfRange ((s.pc + 2 : Nat) : Int)) ∧
  OperandsPastTopRaise 0x50#8

/-- RET: the byte on top of the stack becomes `pc` and `x[7]` is incremented. The underflow test on the
value of `x[7]` is the spec's choice D8 (log entry 13). -/
def Obligations.RetPopsIntoPc : Prop :=
  RunsAs [0x11#8] .ret ∧
  (∀ s : State, (s.x[7]).toNat < 0xF4 →
    exec .ret s = .next { s with
      pc := (s.mem.read (s.x[7]).toNat).toNat
      x := s.x.set 7 (s.x[7] + 1#8) }) ∧
  (∀ s : State, 0xF4 ≤ (s.x[7]).toNat → exec .ret s = raised s .stackUnderflow (s.x[7]).toNat)

/-- R92, JMP. -/
def Obligations.JmpSetsPcFromRegister : Prop :=
  (∀ r, RunsAs [0x54#8, r] (.jmp r)) ∧
  (∀ (s : State) (r : Byte) (h : r.toNat < 8),
    exec (.jmp r) s = .next { s with pc := (s.x[r.toNat]).toNat }) ∧
  (∀ (s : State) (r : Byte), 7 < r.toNat → exec (.jmp r) s = raised s .addressOutOfRange r.toNat) ∧
  OperandsPastTopRaise 0x54#8

/-- JEQ: taken when bit 0 of FL is set, else past its operand. The index is checked on both paths: the
spec's choice D13 (log entry 16). -/
def Obligations.JeqJumpsWhenEqualBitSet : Prop :=
  (∀ r, RunsAs [0x55#8, r] (.jeq r)) ∧
  (∀ (s : State) (r : Byte) (h : r.toNat < 8), s.fl.getLsbD 0 = true →
    exec (.jeq r) s = .next { s with pc := (s.x[r.toNat]).toNat }) ∧
  (∀ (s : State) (r : Byte), r.toNat < 8 → s.fl.getLsbD 0 = false →
    exec (.jeq r) s = .next { s with pc := s.pc + 2 }) ∧
  (∀ (s : State) (r : Byte), 7 < r.toNat → exec (.jeq r) s = raised s .addressOutOfRange r.toNat) ∧
  OperandsPastTopRaise 0x55#8

/-- JNE: taken when bit 0 of FL is clear, else past its operand (the source's bug fix, C8). The index is
checked on both paths: the spec's choice D13 (log entry 16). -/
def Obligations.JneJumpsWhenEqualBitClear : Prop :=
  (∀ r, RunsAs [0x56#8, r] (.jne r)) ∧
  (∀ (s : State) (r : Byte) (h : r.toNat < 8), s.fl.getLsbD 0 = false →
    exec (.jne r) s = .next { s with pc := (s.x[r.toNat]).toNat }) ∧
  (∀ (s : State) (r : Byte), r.toNat < 8 → s.fl.getLsbD 0 = true →
    exec (.jne r) s = .next { s with pc := s.pc + 2 }) ∧
  (∀ (s : State) (r : Byte), 7 < r.toNat → exec (.jne r) s = raised s .addressOutOfRange r.toNat) ∧
  OperandsPastTopRaise 0x56#8

/-- R96, HLT: `running` is cleared, the engine advances past it, nothing else changes, no exception, and
no step follows it. -/
def Obligations.HltClearsRunning : Prop :=
  RunsAs [0x01#8] .hlt ∧
  (∀ s : State, exec .hlt s = .next { s with running := false, pc := s.pc + 1 }) ∧
  (∀ s t u : State, exec .hlt s = .next t → step t ≠ .next u) ∧
  (∀ s t : State, s.fault = none → exec .hlt s = .next t → exitStatus t = some 0)

/-- R11: the index check gives a register for a byte up to 7 and raises AddressOutOfRange of the byte
above it; and every instruction with such an operand byte raises it, with nothing read or written. -/
def Obligations.IllegalRegisterIndexRaises : Prop :=
  (∀ (v : Byte) (h : v.toNat < 8), regIndex v = .ok ⟨v.toNat, h⟩) ∧
  (∀ v : Byte, 7 < v.toNat → regIndex v = .error ⟨.addressOutOfRange, v.toNat⟩) ∧
  (∀ (i : Instr) (s : State), i.wf = false →
    ∃ v ∈ i.operands, 7 < v.toNat ∧ exec i s = raised s .addressOutOfRange v.toNat)

/-! ### What an instruction leaves unchanged -/

/-- R60: after a handler that completes, the engine adds `op[7:6] + 1` exactly when `op[4]` is 0, HLT
included; when `op[4]` is 1 it leaves `pc` as the handler set it; a step that raises does not advance. -/
def Obligations.EngineAdvancesByOpcodeFields : Prop :=
  (∀ (i : Instr) (s t : State), exec i s = .next t → t.fault = none →
    pcMutating i.handler.opcode = false → t.pc = s.pc + operandCount i.handler.opcode + 1) ∧
  (∀ (h : Handler) (s u : State), pcMutating h.opcode = true → complete h s (.ok u) = .next u) ∧
  (∀ (i : Instr) (s t : State) (r : FaultRecord), s.fault = none → exec i s = .next t →
    t.fault = some r → t.pc = s.pc) ∧
  (∀ h : Handler, pcMutating h.opcode = true ↔ h ∈ [Handler.call, .ret, .jmp, .jne, .jeq])

/-- Frame of LDI, ADD and MUL: only the destination register `x[d]` (and `pc`) may change. -/
def Obligations.RegisterWritersFrame : Prop :=
  ∀ (s t : State) (d o : Byte), ∀ i ∈ [Instr.ldi d o, .add d o, .mul d o], exec i s = .next t →
    (∀ j (hj : j < 8), j ≠ d.toNat → t.x[j] = s.x[j]) ∧ t.fl = s.fl ∧ t.out = s.out ∧
    (∀ a, t.mem.read a = s.mem.read a) ∧ ControlKept s t

/-- Frame of PRN, CMP, JMP, JNE, JEQ and HLT: no register and no byte of memory changes; only PRN touches
the output, only CMP touches FL, and only HLT clears `running` without a fault, which it always does. -/
def Obligations.NonWritersFrame : Prop :=
  ∀ (s t : State) (r o : Byte),
    (∀ i ∈ [Instr.prn r, .cmp r o, .jmp r, .jne r, .jeq r, .hlt], exec i s = .next t →
      t.x = s.x ∧ (∀ a, t.mem.read a = s.mem.read a)) ∧
    (∀ i ∈ [Instr.cmp r o, .jmp r, .jne r, .jeq r, .hlt], exec i s = .next t → t.out = s.out) ∧
    (∀ i ∈ [Instr.prn r, .jmp r, .jne r, .jeq r, .hlt], exec i s = .next t → t.fl = s.fl) ∧
    (∀ i ∈ [Instr.prn r, .cmp r o, .jmp r, .jne r, .jeq r], exec i s = .next t → ControlKept s t) ∧
    (exec .hlt s = .next t → t.running = false ∧ t.fault = s.fault)

/-- Frame of PUSH and CALL: of the registers only `x[7]` may change, and of memory only the byte at the
address the stack adjustment computes; nothing at all in memory when a fault is taken. -/
def Obligations.StoringInstructionsFrame : Prop :=
  ∀ (s t : State) (r : Byte), ∀ i ∈ [Instr.push r, .call r], exec i s = .next t →
    (∀ j (hj : j < 8), j ≠ 7 → t.x[j] = s.x[j]) ∧ t.fl = s.fl ∧ t.out = s.out ∧
    (∀ n, adjustStack (stackPointer s) (-1) = .ok n →
      ∀ a, a ≠ n.toNat → t.mem.read a = s.mem.read a) ∧
    (∀ e, adjustStack (stackPointer s) (-1) = .error e → ∀ a, t.mem.read a = s.mem.read a) ∧
    (FaultTaken s t → ∀ a, t.mem.read a = s.mem.read a) ∧ ControlKept s t

/-- Frame of POP and RET: only `x[7]` and, for POP, the destination register may change; memory, the
popped cell included, does not. -/
def Obligations.PoppingInstructionsFrame : Prop :=
  (∀ (s t : State) (r : Byte), exec (.pop r) s = .next t →
    (∀ j (hj : j < 8), j ≠ 7 → j ≠ r.toNat → t.x[j] = s.x[j]) ∧ t.fl = s.fl ∧ t.out = s.out ∧
    (∀ a, t.mem.read a = s.mem.read a) ∧ ControlKept s t) ∧
  (∀ s t : State, exec .ret s = .next t →
    (∀ j (hj : j < 8), j ≠ 7 → t.x[j] = s.x[j]) ∧ t.fl = s.fl ∧ t.out = s.out ∧
    (∀ a, t.mem.read a = s.mem.read a) ∧ ControlKept s t)

/-- R28: FL is mutated by CMP alone, which writes all 8 bits whatever they were, and read by JEQ and JNE
alone, of which each reads bit 0 only. -/
def Obligations.FlagWrittenByCmpReadByBranches : Prop :=
  (∀ (i : Instr) (s t : State), (∀ a b, i ≠ .cmp a b) → exec i s = .next t → t.fl = s.fl) ∧
  (∀ (a b f : Byte) (s t : State), s.fault = none → exec (.cmp a b) s = .next t → t.fault = none →
    exec (.cmp a b) { s with fl := f } = .next t) ∧
  (∀ (i : Instr) (s t : State) (f : Byte), (∀ r, i ≠ .jeq r) → (∀ r, i ≠ .jne r) →
    (∀ a b, i ≠ .cmp a b) → exec i s = .next t →
    exec i { s with fl := f } = .next { t with fl := f }) ∧
  (∀ (i : Instr) (s t : State) (f : Byte), (∀ a b, i ≠ .cmp a b) → f.getLsbD 0 = s.fl.getLsbD 0 →
    exec i s = .next t → exec i { s with fl := f } = .next { t with fl := f })

/-- R32: `out` is empty at construction; a PRN that completes appends the register's value after the
values already there; nothing else changes it; and no instruction reads it. -/
def Obligations.OutputIsOnlyAppended : Prop :=
  (∀ (flReset : Byte) (program : List Byte) (s : State),
    construct flReset program = .next s → s.out = []) ∧
  (∀ (s t : State) (r : Byte) (h : r.toNat < 8), exec (.prn r) s = .next t →
    t.out = s.out ++ [s.x[r.toNat]]) ∧
  (∀ (i : Instr) (s t : State), (∀ r, i ≠ .prn r) → exec i s = .next t → t.out = s.out) ∧
  (∀ (i : Instr) (s t : State), exec i s = .next t → ∃ vs, t.out = s.out ++ vs ∧
    ∀ o, exec i { s with out := o } = .next { t with out := o ++ vs })

/-! ### The ALU block -/

/-- The five ALU operations at the block's interface, SUB and DIV included. The wrap and the rounding are
the spec's choices D1 and D16 (log entry 11). -/
def Obligations.AluComputesFiveOperations : Prop :=
  ∀ (a b : RegIndex) (s : State),
    alu (.op .add) a b s = .ok { s with
      x := s.x.set a.val (BitVec.ofNat 8 (((s.x[a.val]).toNat + (s.x[b.val]).toNat) % 256)) } ∧
    alu (.op .sub) a b s = .ok { s with
      x := s.x.set a.val (BitVec.ofNat 8 (if (s.x[a.val]).toNat < (s.x[b.val]).toNat
        then (s.x[a.val]).toNat + 256 - (s.x[b.val]).toNat
        else (s.x[a.val]).toNat - (s.x[b.val]).toNat)) } ∧
    alu (.op .mul) a b s = .ok { s with
      x := s.x.set a.val (BitVec.ofNat 8 (((s.x[a.val]).toNat * (s.x[b.val]).toNat) % 256)) } ∧
    ((s.x[b.val]).toNat ≠ 0 → ∃ q, alu (.op .div) a b s = .ok { s with x := s.x.set a.val q } ∧
      q.toNat * (s.x[b.val]).toNat ≤ (s.x[a.val]).toNat ∧
      (s.x[a.val]).toNat < (q.toNat + 1) * (s.x[b.val]).toNat) ∧
    alu (.op .cmp) a b s = .ok { s with
      fl := if (s.x[a.val]).toNat < (s.x[b.val]).toNat then 0x04#8
        else if (s.x[b.val]).toNat < (s.x[a.val]).toNat then 0x02#8 else 0x01#8 }

/-- The ALU's two faults: DIV by a zero divisor raises DivisionByZero of the divisor's index, and a select
outside the five raises UnsupportedALUOperation of that select; no other operation raises. How a select
outside the five is written is a DESIGN CHOICE (log entry 8). -/
def Obligations.AluRaisesOnlyItsTwoFaults : Prop :=
  (∀ (a b : RegIndex) (s : State), (s.x[b.val]).toNat = 0 →
    alu (.op .div) a b s = .error ⟨.divisionByZero, b.val⟩) ∧
  (∀ (n : Nat) (a b : RegIndex) (s : State),
    alu (.other n) a b s = .error ⟨.unsupportedAluOperation, n⟩) ∧
  (∀ (sel : AluSelect) (a b : RegIndex) (s : State) (e : Raise), alu sel a b s = .error e →
    (sel = .op .div ∧ (s.x[b.val]).toNat = 0) ∨ ∃ n, sel = .other n)

/-- R76: the arithmetic operations write no flag; the wrap leaves no trace except the value. -/
def Obligations.AluArithmeticWritesNoFlag : Prop :=
  ∀ (o : AluOp) (a b : RegIndex) (s t : State), o ≠ .cmp → alu (.op o) a b s = .ok t →
    t.fl = s.fl ∧ ∃ v, t = { s with x := s.x.set a.val v }

/-! ### The stack and control transfer -/

/-- PUSH then POP of the same register restores every register, for every register number and every
pointer from 1 to 0xF4, and leaves the pushed value below the old top; with r7 the pushed value is the
decremented pointer. Rests on the spec's choices D8 and D10 (log entries 13 and 14). -/
def Obligations.PushThenPopRestores : Prop :=
  ∀ (s : State) (r : Byte) (h : r.toNat < 8), s.mem.wf = true →
    1 ≤ (s.x[7]).toNat → (s.x[7]).toNat ≤ 0xF4 →
    ∃ t u, exec (.push r) s = .next t ∧ exec (.pop r) t = .next u ∧ u.x = s.x ∧
      u.mem.read ((s.x[7]).toNat - 1) = if r.toNat = 7 then s.x[7] - 1#8 else s.x[r.toNat]

/-- CALL then, at any later state whose pointer and top byte are as CALL left them, RET resumes at the
CALL's `pc + 2` with the pointer the CALL found. Rests on the spec's choices D8 and D11 (log entries 13
and 15). -/
def Obligations.RetResumesAfterCall : Prop :=
  ∀ (s t u : State) (r : Byte), s.mem.wf = true → (s.x[7]).toNat ≤ 0xF4 →
    exec (.call r) s = .next t → t.fault = none →
    u.x[7] = t.x[7] → u.mem.read (u.x[7]).toNat = t.mem.read (t.x[7]).toNat →
    ∃ v, exec .ret u = .next v ∧ v.pc = s.pc + 2 ∧ v.x[7] = s.x[7]

/-- The stack in memory is a last-in first-out list: PUSH and CALL put one byte in front of the live
stack bytes, POP (of a register other than r7) and RET take the front one away, into the register or
into `pc`. That PUSH r7 puts the decremented pointer in front, that CALL puts one byte and decrements once,
and that POP and RET stop at 0xF4 are the spec's choices D10, D11 and D8 (log entries 14, 15 and 13). -/
def Obligations.StackIsLastInFirstOut : Prop :=
  ∀ s t : State, s.mem.wf = true → (s.x[7]).toNat ≤ 0xF4 → t.fault = none →
    (∀ (r : Byte) (h : r.toNat < 8), exec (.push r) s = .next t →
      stackBytes t = t.x[r.toNat] :: stackBytes s) ∧
    (∀ (r : Byte) (h : r.toNat < 8), r.toNat ≠ 7 → exec (.pop r) s = .next t →
      stackBytes s = t.x[r.toNat] :: stackBytes t) ∧
    (∀ r : Byte, exec (.call r) s = .next t →
      stackBytes t = BitVec.ofNat 8 (s.pc + 2) :: stackBytes s) ∧
    (exec .ret s = .next t → stackBytes s = BitVec.ofNat 8 t.pc :: stackBytes t ∧ t.pc ≤ 255)

/-- Starting from `x[7] = 0xF4`, after any sequence of PUSH, POP, CALL and RET with no direct write of r7
that takes no fault, the pops do not exceed the pushes, `x[7]` is 0xF4 less the difference, and that is
how many live stack bytes there are (R86). That the pops cannot exceed the pushes rests on the spec's
choice D8 (log entry 13), and that a CALL counts as one byte on its choice D11 (log entry 15). -/
def Obligations.StackDepthIsPushesMinusPops : Prop :=
  ∀ (is : List Instr) (s t : State), (∀ i ∈ is, isStackOp i = true) → s.x[7] = 0xF4#8 →
    execAll is s = some t →
    is.countP isPop ≤ is.countP isPush ∧
    (t.x[7]).toNat + (is.countP isPush - is.countP isPop) = 0xF4 ∧
    (stackBytes t).length = is.countP isPush - is.countP isPop

/-- After CMP: less or greater makes JNE jump and JEQ fall through, equal makes JEQ jump and JNE fall
through, whatever FL was before. -/
def Obligations.BranchesFollowComparison : Prop :=
  ∀ (s t : State) (a b r : Byte) (ha : a.toNat < 8) (hb : b.toNat < 8) (hr : r.toNat < 8),
    exec (.cmp a b) s = .next t →
    (s.x[a.toNat] ≠ s.x[b.toNat] →
      exec (.jeq r) t = .next { t with pc := t.pc + 2 } ∧
      exec (.jne r) t = .next { t with pc := (s.x[r.toNat]).toNat }) ∧
    (s.x[a.toNat] = s.x[b.toNat] →
      exec (.jeq r) t = .next { t with pc := (s.x[r.toNat]).toNat } ∧
      exec (.jne r) t = .next { t with pc := t.pc + 2 })

/-- LDI followed by HLT: after the two steps the register holds the loaded value and `running` is false,
for every register, every value and every place in memory. -/
def Obligations.LdiThenHltHoldsValue : Prop :=
  ∀ (s : State) (r imm : Byte) (h : r.toNat < 8), s.running = true →
    BytesAtPc s [0x82#8, r, imm, 0x01#8] →
    ∃ t u, step s = .next t ∧ step t = .next u ∧ u.x[r.toNat] = imm ∧ u.running = false ∧
      u.fault = s.fault ∧ u.mem = s.mem

/-! ### Memory -/

/-- R10: both primitives check their address; outside 0..255 they raise AddressOutOfRange of it and never
wrap or ignore; inside, a read gives the cell and a write makes that cell, and no other, hold the byte. -/
def Obligations.MemoryPrimitivesCheckAddress : Prop :=
  (∀ (a : Int) (v : Byte) (s : State), a < 0 ∨ 255 < a →
    memRead a s = .error ⟨.addressOutOfRange, a⟩ ∧ memWrite a v s = .error ⟨.addressOutOfRange, a⟩) ∧
  (∀ (a : Int) (v : Byte) (s : State), 0 ≤ a → a ≤ 255 → s.mem.wf = true →
    memRead a s = .ok (s.mem.read a.toNat) ∧
    ∃ t, memWrite a v s = .ok t ∧ t = { s with mem := t.mem } ∧ t.mem.wf = true ∧
      memRead a t = .ok v ∧ ∀ b, b ≠ a → memRead b t = memRead b s)

/-- Two memories in canonical form that read alike at every address are the same data. -/
def Obligations.CanonicalMemoriesReadingAlikeAreEqual : Prop :=
  ∀ m n : Memory, m.wf = true → n.wf = true → (∀ a, m.read a = n.read a) → m = n

/-- The next fetch after a PUSH or CALL sees the byte it stored, at whichever of `pc`, `pc + 1` and `pc + 2`
it stands, and the old byte at each of these addresses it did not store to (R47); the PUSH or CALL itself
ran with the operand it fetched, even where its store overwrote that operand. PUSH r7 stores the
decremented pointer, and CALL stores to the one byte it decremented to: the spec's choices D10 and D11
(log entries 14 and 15). -/
def Obligations.StoredByteIsFetchedNext : Prop :=
  ∀ (s t : State) (r : Byte) (h : r.toNat < 8) (k : Nat), s.running = true → s.mem.wf = true →
    step s = .next t → t.fault = none → k ≤ 2 → t.pc + k ≤ 255 →
    (BytesAtPc s [0x45#8, r] → (fetchWindow t)[k]? =
      some (if t.pc + k = (t.x[7]).toNat then t.x[r.toNat] else s.mem.read (t.pc + k))) ∧
    (BytesAtPc s [0x50#8, r] → (fetchWindow t)[k]? =
      some (if t.pc + k = (t.x[7]).toNat then BitVec.ofNat 8 (s.pc + 2) else s.mem.read (t.pc + k)))

/-! ### Construction and the ports -/

/-- R25: at construction, `pc = 0`. -/
def Obligations.PcStartsAtZero : Prop :=
  State.reset.pc = 0 ∧
  ∀ (flReset : Byte) (program : List Byte) (s : State),
    construct flReset program = .next s → s.pc = 0

/-- The state after reset: nothing loaded, every cell 0x00, r0..r6 zero, r7 = 0xF4, `pc = 0`, running, no
fault, no output. The zeros and `running` are the spec's choices D2, D3 and D22 (log entries 2, 3 and 20);
FL is the open parameter, of which this says nothing but its name (log entry 1). -/
def Obligations.ResetStateIsAsConstructed : Prop :=
  (∀ a, State.reset.mem.read a = 0x00#8) ∧
  (∀ j (hj : j < 8), State.reset.x[j] = if j = 7 then 0xF4#8 else 0x00#8) ∧
  State.reset.pc = 0 ∧ State.reset.fl = Config.flReset ∧ State.reset.running = true ∧
  State.reset.fault = none ∧ State.reset.out = []

/-- The load port: a program of at most 256 bytes stands at address 0 on, every other cell is 0x00, and
loading writes nothing else, for every FL_RESET; a longer program is refused. The limit is the spec's
choice D21 (log entry 19), the fill value D3 (log entry 3). -/
def Obligations.LoadPlacesProgramFromZero : Prop :=
  ∀ (flReset : Byte) (program : List Byte),
    (program.length ≤ 256 → ∃ s, construct flReset program = .next s ∧
      (∀ k (h : k < program.length), s.mem.read k = program[k]) ∧
      (∀ a, program.length ≤ a → s.mem.read a = 0x00#8) ∧
      s = { State.constructed flReset with mem := s.mem } ∧ s.fl = flReset) ∧
    (256 < program.length →
      construct flReset program = .refused (.programTooLong program.length))

/-- The status port: no exit status while the CORE runs, 0 when it stopped halted, 1 when it stopped
faulted; and the numeric codes. The codes and the value 1 are the spec's choices D14 and D15 (log entry
17). -/
def Obligations.StatusPortReportsStop : Prop :=
  (∀ s : State, s.running = true → exitStatus s = none) ∧
  (∀ s : State, Halted s → exitStatus s = some 0 ∧ statusCode s = 0) ∧
  (∀ s : State, Faulted s → exitStatus s = some 1 ∧ statusCode s ≠ 0) ∧
  (∀ (s : State) (r : FaultRecord), s.fault = some r →
    statusCode s = match r.code with
      | .unknownOpcode => 1
      | .addressOutOfRange => 2
      | .stackUnderflow => 3
      | .divisionByZero => 4
      | .unsupportedAluOperation => 5)

/-- The trace port shows `pc`, the bytes at `pc`, `pc + 1` and `pc + 2` and the eight registers; a byte above
255 is absent. The three addresses are the spec's choice D23 (log entry 18). -/
def Obligations.TracePortShowsPcBytesAndRegisters : Prop :=
  ∀ s : State, (traceSnapshot s).pc = s.pc ∧ (traceSnapshot s).x = s.x ∧
    (s.pc ≤ 255 → (traceSnapshot s).byte0 = some (s.mem.read s.pc)) ∧
    (255 < s.pc → (traceSnapshot s).byte0 = none) ∧
    (s.pc + 1 ≤ 255 → (traceSnapshot s).byte1 = some (s.mem.read (s.pc + 1))) ∧
    (255 < s.pc + 1 → (traceSnapshot s).byte1 = none) ∧
    (s.pc + 2 ≤ 255 → (traceSnapshot s).byte2 = some (s.mem.read (s.pc + 2))) ∧
    (255 < s.pc + 2 → (traceSnapshot s).byte2 = none)
end

