-- ==== Sys2Proof/Laws/Decode.lean ====
section
/-! SUPPORT. The dispatch table and the opcode fields. -/

namespace Sys2Proof

/-- No two rows of the dispatch table have the same opcode byte. -/
theorem handlers_pairwise_distinct :
    handlers.Pairwise fun g h => g.opcode ≠ h.opcode := by decide

@[simp] theorem dispatch_opcode (h : Handler) : dispatch h.opcode = some h := by
  cases h <;> rfl

theorem dispatch_eq_some {op : Byte} {h : Handler} (hd : dispatch op = some h) : op = h.opcode := by
  have hp : (h.opcode == op) = true := 
    List.find?_some (p := fun g : Handler => g.opcode == op) hd
  exact (beq_iff_eq.1 hp).symm

theorem dispatch_isSome_iff (op : Byte) (h : Handler) : dispatch op = some h ↔ op = h.opcode :=
  ⟨dispatch_eq_some, fun e => e ▸ dispatch_opcode h⟩

@[simp] theorem decode_nil : decode [] = .error .noOpcode := rfl

theorem decode_cons_some {op : Byte} {h : Handler} (bs : List Byte) (hd : dispatch op = some h) :
    decode (op :: bs) = decodeOperands h bs := by simp [decode, hd]

theorem decode_cons_none {op : Byte} (bs : List Byte) (hd : dispatch op = none) :
    decode (op :: bs) = .error (.unknownOpcode op) := by simp [decode, hd]

@[simp] theorem decode_opcode_cons (h : Handler) (bs : List Byte) :
    decode (h.opcode :: bs) = decodeOperands h bs := decode_cons_some bs (dispatch_opcode h)

/-- What reading the operands answers: the instruction of that handler whose operands the bytes begin
with. -/
theorem decodeOperands_ok {h : Handler} {bs rest : List Byte} {i : Instr}
    (hd : decodeOperands h bs = .ok (i, rest)) : i.handler = h ∧ bs = i.operands ++ rest := by
  cases h <;> rcases bs with _ | ⟨a, _ | ⟨b, bs⟩⟩ <;>
    simp_all [decodeOperands, takeOne, takeTwo] <;> obtain ⟨rfl, rfl⟩ := hd <;>
    simp_all [Instr.handler, Instr.operands]

@[simp] theorem decodeOperands_operands (i : Instr) (rest : List Byte) :
    decodeOperands i.handler (i.operands ++ rest) = .ok (i, rest) := by cases i <;> rfl

/-- The operand count of each handler, as R50's table gives it. -/
theorem operandCount_opcode (h : Handler) : operandCount h.opcode =
    match h with
    | .hlt | .ret => 0
    | .ldi | .mul | .add | .cmp => 2
    | .prn | .push | .pop | .call | .jmp | .jne | .jeq => 1 := by cases h <;> decide

/-- When the operand bytes are too few, the first missing one is named. -/
theorem decodeOperands_missing (h : Handler) (bs : List Byte)
    (hl : bs.length < operandCount h.opcode) :
    decodeOperands h bs = .error (.missingOperand (bs.length + 1)) := by
  rcases bs with _ | ⟨a, _ | ⟨b, bs⟩⟩ <;> cases h <;>
    first
    | rfl
    | exact absurd hl (by simp [operandCount_opcode])

/-- The longest instruction has two operand bytes (R51). -/
theorem operandCount_le_two (h : Handler) : operandCount h.opcode ≤ 2 := by cases h <;> decide

/-- When the operand bytes are enough, an instruction is read. -/
theorem decodeOperands_enough (h : Handler) (bs : List Byte)
    (hl : operandCount h.opcode ≤ bs.length) : ∃ p, decodeOperands h bs = .ok p := by
  rcases bs with _ | ⟨a, _ | ⟨b, bs⟩⟩ <;> cases h <;>
    first
    | exact ⟨_, rfl⟩
    | exact absurd hl (by simp [operandCount_opcode])

@[simp] theorem length_operands (i : Instr) : i.operands.length = operandCount i.handler.opcode := by
  cases i <;> simp [Instr.operands, Instr.handler, operandCount_opcode]

@[simp] theorem length_encode (i : Instr) :
    (encode i).length = operandCount i.handler.opcode + 1 := by simp [encode]

/-- The PC-mutating bit of each handler, as R50's table gives it. -/
theorem pcMutating_opcode_eq (h : Handler) : pcMutating h.opcode =
    match h with
    | .call | .ret | .jmp | .jne | .jeq => true
    | .ldi | .prn | .mul | .hlt | .push | .pop | .add | .cmp => false := by cases h <;> rfl

/-- The PC-mutating handlers are CALL, RET and the three jumps (R50). -/
theorem pcMutating_opcode (h : Handler) : pcMutating h.opcode = true ↔
    h = .call ∨ h = .ret ∨ h = .jmp ∨ h = .jne ∨ h = .jeq := by cases h <;> decide

end Sys2Proof
end

