-- ==== Sys2Proof/Laws/Memory.lean ====
section
/-! SUPPORT. The memory's laws: read after write, and that every operation keeps the canonical form. -/

namespace Sys2Proof.Machine

@[simp] theorem Memory.read_nil (a : Nat) : Memory.read [] a = Config.memFill := rfl

/-- Below every listed address, memory reads as the fill value. -/
theorem Memory.read_of_all_lt (a : Nat) : ∀ m : Memory, m.all (fun c => decide (a < c.1)) = true →
    m.read a = Config.memFill
  | [], _ => rfl
  | (k, v) :: m, h => by
    simp only [List.all_cons, Bool.and_eq_true, decide_eq_true_eq] at h
    have hk : k ≠ a := by omega
    simp only [Memory.read, if_neg hk]
    exact Memory.read_of_all_lt a m h.2

theorem Memory.wf_cons (k : Nat) (v : Byte) (m : Memory) :
    Memory.wf ((k, v) :: m) = true ↔
      k < 256 ∧ v ≠ Config.memFill ∧ m.all (fun c => decide (k < c.1)) = true ∧ m.wf = true := by
  simp [Memory.wf, and_assoc]

/-- A write changes no other address, in any list of cells. -/
theorem Memory.read_write_other (a b : Nat) (v : Byte) (h : b ≠ a) :
    ∀ m : Memory, (m.write a v).read b = m.read b
  | [] => by
    unfold Memory.write; split <;> simp [Memory.read, Ne.symm h]
  | (k, w) :: m => by
    unfold Memory.write
    split
    · split
      · rfl
      · simp [Memory.read, Ne.symm h]
    · split
      · rename_i hk
        subst hk
        split <;> simp [Memory.read, Ne.symm h]
      · simp only [Memory.read, Memory.read_write_other a b v h m]

/-- A cell reads back what was written to it. -/
theorem Memory.read_write_same (a : Nat) (v : Byte) :
    ∀ m : Memory, m.wf = true → (m.write a v).read a = v
  | [], _ => by unfold Memory.write; split <;> simp_all [Memory.read]
  | (k, w) :: m, h => by
    obtain ⟨-, -, hall, hm⟩ := (Memory.wf_cons k w m).1 h
    unfold Memory.write
    split
    · rename_i hlt
      split
      · rename_i hv
        rw [hv]
        refine Memory.read_of_all_lt a _ ?_
        simp only [List.all_cons, Bool.and_eq_true, decide_eq_true_eq, List.all_eq_true] at hall ⊢
        exact ⟨hlt, fun c hc => lt_trans hlt (hall c hc)⟩
      · simp [Memory.read]
    · split
      · rename_i hk
        subst hk
        split
        · rename_i hv
          rw [hv, Memory.read_of_all_lt a m hall]
        · simp [Memory.read]
      · rename_i hne
        simp only [Memory.read, if_neg (Ne.symm hne), Memory.read_write_same a v m hm]

/-- Every address a write lists was listed before or is the one written. -/
theorem Memory.all_write (P : Nat → Bool) (a : Nat) (v : Byte) (ha : P a = true) :
    ∀ m : Memory, m.all (fun c => P c.1) = true → (m.write a v).all (fun c => P c.1) = true
  | [], _ => by unfold Memory.write; split <;> simp [ha]
  | (k, w) :: m, h => by
    simp only [List.all_cons, Bool.and_eq_true] at h
    have ih := Memory.all_write P a v ha m h.2
    unfold Memory.write
    split
    · split <;> simp only [List.all_cons, Bool.and_eq_true]
      exacts [h, ⟨ha, h⟩]
    · split
      · split
        · exact h.2
        · simp only [List.all_cons, Bool.and_eq_true]
          exact ⟨ha, h.2⟩
      · simp only [List.all_cons, Bool.and_eq_true]
        exact ⟨h.1, ih⟩

/-- A write below 256 keeps the canonical form. -/
theorem Memory.write_wf (a : Nat) (v : Byte) (ha : a < 256) :
    ∀ m : Memory, m.wf = true → (m.write a v).wf = true
  | [], _ => by
    unfold Memory.write; split
    · rfl
    · simp_all [Memory.wf]
  | (k, w) :: m, h => by
    obtain ⟨hk, hw, hall, hm⟩ := (Memory.wf_cons k w m).1 h
    unfold Memory.write
    split
    · rename_i hlt
      split
      · exact h
      · rename_i hv
        refine (Memory.wf_cons a v _).2 ⟨ha, hv, ?_, h⟩
        simp only [List.all_cons, Bool.and_eq_true, decide_eq_true_eq, List.all_eq_true] at hall ⊢
        exact ⟨hlt, fun c hc => lt_trans hlt (hall c hc)⟩
    · split
      · rename_i he
        subst he
        split
        · exact hm
        · rename_i hv
          exact (Memory.wf_cons a v m).2 ⟨ha, hv, hall, hm⟩
      · refine (Memory.wf_cons k w _).2 ⟨hk, hw, ?_, Memory.write_wf a v ha m hm⟩
        exact Memory.all_write (fun n => decide (k < n)) a v (by simp; omega) m hall

/-- Storing bytes below 256 keeps the canonical form. -/
theorem Memory.storeBytes_wf : ∀ (bs : List Byte) (a : Nat) (m : Memory), a + bs.length ≤ 256 →
    m.wf = true → (m.storeBytes a bs).wf = true
  | [], _, _, _, h => h
  | b :: bs, a, m, hl, h => by
    simp only [List.length_cons] at hl
    exact Memory.storeBytes_wf bs (a + 1) _ (by omega) (Memory.write_wf a b (by omega) m h)

/-- Storing bytes changes no address outside them. -/
theorem Memory.read_storeBytes_other : ∀ (bs : List Byte) (a b : Nat) (m : Memory),
    b < a ∨ a + bs.length ≤ b → (m.storeBytes a bs).read b = m.read b
  | [], _, _, _, _ => rfl
  | c :: bs, a, b, m, h => by
    simp only [List.length_cons] at h
    rw [Memory.storeBytes, Memory.read_storeBytes_other bs (a + 1) b _ (by omega),
      Memory.read_write_other a b c (by omega)]

/-- The k-th stored byte stands at the k-th address. -/
theorem Memory.read_storeBytes : ∀ (bs : List Byte) (a k : Nat) (m : Memory) (h : k < bs.length),
    a + bs.length ≤ 256 → m.wf = true → (m.storeBytes a bs).read (a + k) = bs[k]
  | c :: bs, a, 0, m, _, hl, hm => by
    simp only [List.length_cons] at hl
    rw [Memory.storeBytes, Memory.read_storeBytes_other bs (a + 1) (a + 0) _ (by omega)]
    exact Memory.read_write_same a c m hm
  | c :: bs, a, k + 1, m, h, hl, hm => by
    simp only [List.length_cons] at hl h
    have := Memory.read_storeBytes bs (a + 1) k (m.write a c) (by omega) (by omega)
      (Memory.write_wf a c (by omega) m hm)
    simpa [Memory.storeBytes, Nat.add_assoc, Nat.add_comm 1 k] using this

end Sys2Proof.Machine
end

