-- ==== Sys2Proof/Laws/State.lean ====
section
/-! SUPPORT. One lemma per field per update of State, so that no later proof unfolds a record update. -/

namespace Sys2Proof.Machine

/-! ### writeReg -/

@[simp] theorem writeReg_mem (i v s) : (writeReg i v s).mem = s.mem := rfl
@[simp] theorem writeReg_x (i v s) : (writeReg i v s).x = s.x.set i.val v := rfl
@[simp] theorem writeReg_pc (i v s) : (writeReg i v s).pc = s.pc := rfl
@[simp] theorem writeReg_fl (i v s) : (writeReg i v s).fl = s.fl := rfl
@[simp] theorem writeReg_running (i v s) : (writeReg i v s).running = s.running := rfl
@[simp] theorem writeReg_fault (i v s) : (writeReg i v s).fault = s.fault := rfl
@[simp] theorem writeReg_out (i v s) : (writeReg i v s).out = s.out := rfl

theorem readReg_writeReg (i j : RegIndex) (v : Byte) (s : State) :
    readReg j (writeReg i v s) = if i = j then v else readReg j s := by
  simp only [readReg, writeReg_x, Vector.getElem_set, Fin.ext_iff]

@[simp] theorem readReg_writeReg_same (i v s) : readReg i (writeReg i v s) = v := by
  simp [readReg_writeReg]

/-! ### emit and setPc -/

@[simp] theorem emit_mem (v s) : (emit v s).mem = s.mem := rfl
@[simp] theorem emit_x (v s) : (emit v s).x = s.x := rfl
@[simp] theorem emit_pc (v s) : (emit v s).pc = s.pc := rfl
@[simp] theorem emit_fl (v s) : (emit v s).fl = s.fl := rfl
@[simp] theorem emit_running (v s) : (emit v s).running = s.running := rfl
@[simp] theorem emit_fault (v s) : (emit v s).fault = s.fault := rfl
@[simp] theorem emit_out (v s) : (emit v s).out = s.out ++ [v] := rfl

@[simp] theorem setPc_mem (n s) : (setPc n s).mem = s.mem := rfl
@[simp] theorem setPc_x (n s) : (setPc n s).x = s.x := rfl
@[simp] theorem setPc_pc (n s) : (setPc n s).pc = n := rfl
@[simp] theorem setPc_fl (n s) : (setPc n s).fl = s.fl := rfl
@[simp] theorem setPc_running (n s) : (setPc n s).running = s.running := rfl
@[simp] theorem setPc_fault (n s) : (setPc n s).fault = s.fault := rfl
@[simp] theorem setPc_out (n s) : (setPc n s).out = s.out := rfl

/-! ### raiseFault -/

@[simp] theorem raiseFault_mem (s e) : (raiseFault s e).mem = s.mem := rfl
@[simp] theorem raiseFault_x (s e) : (raiseFault s e).x = s.x := rfl
@[simp] theorem raiseFault_pc (s e) : (raiseFault s e).pc = s.pc := rfl
@[simp] theorem raiseFault_fl (s e) : (raiseFault s e).fl = s.fl := rfl
@[simp] theorem raiseFault_running (s e) : (raiseFault s e).running = false := rfl
@[simp] theorem raiseFault_fault (s e) :
    (raiseFault s e).fault = some ⟨e.code, s.pc, byteAt s s.pc, e.info⟩ := rfl
@[simp] theorem raiseFault_out (s e) : (raiseFault s e).out = s.out := rfl

/-! ### advance: only `pc` changes (R60) -/

@[simp] theorem advance_mem (op s) : (advance op s).mem = s.mem := by unfold advance; split <;> rfl
@[simp] theorem advance_x (op s) : (advance op s).x = s.x := by unfold advance; split <;> rfl
@[simp] theorem advance_fl (op s) : (advance op s).fl = s.fl := by unfold advance; split <;> rfl
@[simp] theorem advance_running (op s) : (advance op s).running = s.running := by
  unfold advance; split <;> rfl
@[simp] theorem advance_fault (op s) : (advance op s).fault = s.fault := by
  unfold advance; split <;> rfl
@[simp] theorem advance_out (op s) : (advance op s).out = s.out := by unfold advance; split <;> rfl
theorem advance_pc (op : Byte) (s : State) :
    (advance op s).pc = if pcMutating op then s.pc else s.pc + operandCount op + 1 := by
  unfold advance; split <;> rfl

/-! ### load and construction -/

@[simp] theorem load_mem (p s) : (load p s).mem = s.mem.storeBytes 0 p := rfl
@[simp] theorem load_x (p s) : (load p s).x = s.x := rfl
@[simp] theorem load_pc (p s) : (load p s).pc = s.pc := rfl
@[simp] theorem load_fl (p s) : (load p s).fl = s.fl := rfl
@[simp] theorem load_running (p s) : (load p s).running = s.running := rfl
@[simp] theorem load_fault (p s) : (load p s).fault = s.fault := rfl
@[simp] theorem load_out (p s) : (load p s).out = s.out := rfl

@[simp] theorem constructed_mem (f) : (State.constructed f).mem = [] := rfl
@[simp] theorem constructed_pc (f) : (State.constructed f).pc = 0 := rfl
@[simp] theorem constructed_fl (f) : (State.constructed f).fl = f := rfl
@[simp] theorem constructed_running (f) : (State.constructed f).running = true := rfl
@[simp] theorem constructed_fault (f) : (State.constructed f).fault = none := rfl
@[simp] theorem constructed_out (f) : (State.constructed f).out = [] := rfl

end Sys2Proof.Machine
end

