-- ==== Sys2Proof/Laws/Ops.lean ====
section
/-! SUPPORT. One lemma per shared operation that says everything it can do; the meanings' proofs cite
these and never unfold the operation. -/

namespace Sys2Proof.Machine

/-! ### The two outcomes of a handler -/

@[simp] theorem ok_bind {α β : Type} (a : α) (f : α → Except Raise β) :
    (Except.ok a >>= f) = f a := rfl

@[simp] theorem error_bind {α β : Type} (e : Raise) (f : α → Except Raise β) :
    ((Except.error e : Except Raise α) >>= f) = .error e := rfl

@[simp] theorem pure_eq_ok {α : Type} (a : α) : (pure a : Except Raise α) = .ok a := rfl

/-- A handler that ends with a state got one from its first operation. -/
theorem bind_ok_iff {α β : Type} (x : Except Raise α) (f : α → Except Raise β) (b : β) :
    (x >>= f) = .ok b ↔ ∃ a, x = .ok a ∧ f a = .ok b := by
  cases x <;> simp

@[simp] theorem complete_ok (h s t) : complete h s (.ok t) = .next (advance h.opcode t) := rfl

@[simp] theorem complete_error (h s e) : complete h s (.error e) = .next (raiseFault s e) := rfl

/-- Everything an instruction's end can be: the handler completed and the engine advanced, or it raised
and the fault was taken in the state it started from. -/
theorem complete_eq_next (h : Handler) (s t : State) (b : Except Raise State) :
    complete h s b = .next t ↔
      (∃ u, b = .ok u ∧ t = advance h.opcode u) ∨ (∃ e, b = .error e ∧ t = raiseFault s e) := by
  cases b <;> simp [eq_comm]

theorem complete_is_next (h : Handler) (s : State) (b : Except Raise State) :
    ∃ t, complete h s b = .next t := by
  cases b <;> simp

/-! ### Memory primitives -/

theorem memRead_error {a : Int} (s : State) (h : a < 0 ∨ 255 < a) :
    memRead a s = .error ⟨.addressOutOfRange, a⟩ := if_pos h

theorem memRead_ok {a : Int} (s : State) (h0 : 0 ≤ a) (h1 : a ≤ 255) :
    memRead a s = .ok (s.mem.read a.toNat) := if_neg (by omega)

/-- The address in a register is always in range. -/
@[simp] theorem memRead_byte (b : Byte) (s : State) :
    memRead (b.toNat : Int) s = .ok (s.mem.read b.toNat) := by
  rw [memRead_ok s (by omega) (by have := b.isLt; omega), Int.toNat_natCast]

theorem memWrite_error {a : Int} (v : Byte) (s : State) (h : a < 0 ∨ 255 < a) :
    memWrite a v s = .error ⟨.addressOutOfRange, a⟩ := if_pos h

theorem memWrite_ok {a : Int} (v : Byte) (s : State) (h0 : 0 ≤ a) (h1 : a ≤ 255) :
    memWrite a v s = .ok { s with mem := s.mem.write a.toNat v } := if_neg (by omega)

@[simp] theorem memWrite_byte (b v : Byte) (s : State) :
    memWrite (b.toNat : Int) v s = .ok { s with mem := s.mem.write b.toNat v } := by
  rw [memWrite_ok v s (by omega) (by have := b.isLt; omega), Int.toNat_natCast]

/-! ### Operand checks -/

theorem regIndex_ok {v : Byte} (h : v.toNat < 8) : regIndex v = .ok ⟨v.toNat, h⟩ := dif_pos h

theorem regIndex_error {v : Byte} (h : 7 < v.toNat) :
    regIndex v = .error ⟨.addressOutOfRange, v.toNat⟩ := dif_neg (show ¬v.toNat < 8 by omega)

theorem regIndex_eq_ok (v : Byte) (i : RegIndex) : regIndex v = .ok i ↔ v.toNat = i.val := by
  rcases Nat.lt_or_ge v.toNat 8 with h | h
  · simp [regIndex_ok h, Fin.ext_iff]
  · simp only [regIndex_error h, reduceCtorEq, false_iff]
    have := i.isLt
    omega

/-- Decrement: raises exactly at 0. -/
theorem adjustStack_dec (sp : Byte) : adjustStack sp (-1) =
    if sp = 0#8 then .error ⟨.addressOutOfRange, -1⟩ else .ok (sp - 1#8) := by
  have := sp.isLt
  unfold adjustStack
  by_cases h : sp = 0#8
  · subst h; rfl
  · have h0 : sp.toNat ≠ 0 := fun c => h (BitVec.eq_of_toNat_eq (by simpa using c))
    rw [if_neg (by omega), if_neg h]
    congr 1
    apply BitVec.eq_of_toNat_eq
    rw [BitVec.toNat_ofInt, BitVec.toNat_sub]
    simp
    omega

/-- Increment: raises exactly at 255. -/
theorem adjustStack_inc (sp : Byte) : adjustStack sp 1 =
    if sp = 0xFF#8 then .error ⟨.addressOutOfRange, 256⟩ else .ok (sp + 1#8) := by
  have := sp.isLt
  unfold adjustStack
  by_cases h : sp = 0xFF#8
  · subst h; rfl
  · have h0 : sp.toNat ≠ 255 := fun c => h (BitVec.eq_of_toNat_eq (by simpa using c))
    rw [if_neg (by omega), if_neg h]
    congr 1

theorem checkUnderflow_error {sp : Byte} (h : 0xF4 ≤ sp.toNat) :
    checkUnderflow sp = .error ⟨.stackUnderflow, sp.toNat⟩ := if_pos (by simpa using h)

theorem checkUnderflow_ok {sp : Byte} (h : sp.toNat < 0xF4) : checkUnderflow sp = .ok () :=
  if_neg (by simpa using h)

theorem checkUnderflow_eq_ok (sp : Byte) (u : Unit) :
    checkUnderflow sp = .ok u ↔ sp.toNat < 0xF4 := by
  rcases Nat.lt_or_ge sp.toNat 0xF4 with h | h
  · simp [checkUnderflow_ok h, h]
  · simp [checkUnderflow_error h, h]

theorem returnAddress_error {a : Nat} (h : 255 < a) :
    returnAddress a = .error ⟨.addressOutOfRange, a⟩ := if_pos h

theorem returnAddress_ok {a : Nat} (h : a ≤ 255) : returnAddress a = .ok (BitVec.ofNat 8 a) :=
  if_neg (by omega)

theorem returnAddress_eq_ok (a : Nat) (v : Byte) :
    returnAddress a = .ok v ↔ a ≤ 255 ∧ v = BitVec.ofNat 8 a := by
  rcases Nat.lt_or_ge 255 a with h | h
  · simp [returnAddress_error h]; omega
  · simp [returnAddress_ok h, h, eq_comm]

/-! ### The ALU's operations as the dispatch table issues them -/

@[simp] theorem alu_add (a b s) :
    alu (.op .add) a b s = .ok (writeReg a (aluAdd (readReg a s) (readReg b s)) s) := rfl

@[simp] theorem alu_mul (a b s) :
    alu (.op .mul) a b s = .ok (writeReg a (aluMul (readReg a s) (readReg b s)) s) := rfl

@[simp] theorem alu_cmp (a b s) :
    alu (.op .cmp) a b s = .ok { s with fl := compareFlags (readReg a s) (readReg b s) } := rfl

/-- Every comparison result is one of the three one-bit values (R73). -/
theorem compareFlags_cases (u v : Byte) :
    (u.toNat < v.toNat ∧ compareFlags u v = 0x04#8) ∨ (v.toNat < u.toNat ∧ compareFlags u v = 0x02#8) ∨
      (u = v ∧ compareFlags u v = 0x01#8) := by
  rcases lt_trichotomy u.toNat v.toNat with h | h | h
  · exact .inl ⟨h, if_pos h⟩
  · exact .inr (.inr ⟨BitVec.eq_of_toNat_eq h, by
      unfold compareFlags; rw [if_neg (by omega), if_neg (by omega)]; rfl⟩)
  · exact .inr (.inl ⟨h, by unfold compareFlags; rw [if_neg (by omega), if_pos h]; rfl⟩)

/-- The bit JEQ and JNE read is set after a comparison exactly when the operands were equal. -/
theorem equalBit_compareFlags (u v : Byte) : equalBit (compareFlags u v) = decide (u = v) := by
  rcases compareFlags_cases u v with ⟨h, e⟩ | ⟨h, e⟩ | ⟨h, e⟩
  · rw [e, decide_eq_false (fun c => by subst c; omega)]; rfl
  · rw [e, decide_eq_false (fun c => by subst c; omega)]; rfl
  · rw [e, decide_eq_true h]; rfl

end Sys2Proof.Machine
end

