-- ==== Sys2Proof/Laws/Exec.lean ====
section
/-! SUPPORT. Said once: everything an instruction can do. Every frame and invariant follows from
`exec_cases` by a case split, with no meaning unfolded again. -/

namespace Sys2Proof.Machine

/-- The state `u` a completed handler of `i` leaves, before the engine's advance. -/
def HandlerEffect (s u : State) : Instr → Prop
  | .ldi r imm => ∃ i, regIndex r = .ok i ∧ u = writeReg i imm s
  | .prn r => ∃ i, regIndex r = .ok i ∧ u = emit (readReg i s) s
  | .mul a b => ∃ i j, regIndex a = .ok i ∧ regIndex b = .ok j ∧
      u = writeReg i (aluMul (readReg i s) (readReg j s)) s
  | .hlt => u = { s with running := false }
  | .push r => ∃ i, regIndex r = .ok i ∧ stackPointer s ≠ 0#8 ∧
      ∃ n, n = stackPointer s - 1#8 ∧
        u = { writeReg Config.spIndex n s with
          mem := s.mem.write n.toNat (readReg i (writeReg Config.spIndex n s)) }
  | .pop r => ∃ i, regIndex r = .ok i ∧ (stackPointer s).toNat < 0xF4 ∧
      ∃ t, t = writeReg i (s.mem.read (stackPointer s).toNat) s ∧ stackPointer t ≠ 0xFF#8 ∧
        u = writeReg Config.spIndex (stackPointer t + 1#8) t
  | .add a b => ∃ i j, regIndex a = .ok i ∧ regIndex b = .ok j ∧
      u = writeReg i (aluAdd (readReg i s) (readReg j s)) s
  | .call r => ∃ i, regIndex r = .ok i ∧ stackPointer s ≠ 0#8 ∧ s.pc + 2 ≤ 255 ∧
      ∃ n, n = stackPointer s - 1#8 ∧
        u = { writeReg Config.spIndex n s with
          mem := s.mem.write n.toNat (BitVec.ofNat 8 (s.pc + 2))
          pc := (readReg i (writeReg Config.spIndex n s)).toNat }
  | .ret => (stackPointer s).toNat < 0xF4 ∧
      u = writeReg Config.spIndex (stackPointer s + 1#8)
        (setPc (s.mem.read (stackPointer s).toNat).toNat s)
  | .cmp a b => ∃ i j, regIndex a = .ok i ∧ regIndex b = .ok j ∧
      u = { s with fl := compareFlags (readReg i s) (readReg j s) }
  | .jmp r => ∃ i, regIndex r = .ok i ∧ u = setPc (readReg i s).toNat s
  | .jne r => ∃ i, regIndex r = .ok i ∧
      u = setPc (if equalBit s.fl then s.pc + 2 else (readReg i s).toNat) s
  | .jeq r => ∃ i, regIndex r = .ok i ∧
      u = setPc (if equalBit s.fl then (readReg i s).toNat else s.pc + 2) s

/-- The codes an instruction's handler can raise (R99, R75). -/
def RaisableCode (c : FaultCode) : Prop := c = .addressOutOfRange ∨ c = .stackUnderflow

theorem regIndex_error_code {v : Byte} {e : Raise} (h : regIndex v = .error e) :
    e = ⟨.addressOutOfRange, v.toNat⟩ := by
  rcases Nat.lt_or_ge v.toNat 8 with hv | hv
  · simp [regIndex_ok hv] at h
  · simpa [regIndex_error (show 7 < v.toNat from hv), eq_comm] using h

/-- An instruction is its handler followed by the engine's advance or the fault. -/
theorem exec_eq_complete (i : Instr) (s : State) : ∃ b, exec i s = complete i.handler s b ∧
    (∀ u, b = .ok u → HandlerEffect s u i) ∧ (∀ e, b = .error e → RaisableCode e.code) := by
  cases i with
  | ldi r imm =>
    refine ⟨_, rfl, fun u h => ?_, fun e h => ?_⟩
    · obtain ⟨i, hi, h⟩ := (bind_ok_iff _ _ _).1 h
      exact ⟨i, hi, by simpa [eq_comm] using h⟩
    · cases hr : regIndex r <;> simp_all [RaisableCode]
      exact .inl (by rw [regIndex_error_code hr])
  | prn r =>
    refine ⟨_, rfl, fun u h => ?_, fun e h => ?_⟩
    · obtain ⟨i, hi, h⟩ := (bind_ok_iff _ _ _).1 h
      exact ⟨i, hi, by simpa [eq_comm] using h⟩
    · cases hr : regIndex r <;> simp_all [RaisableCode]
      exact .inl (by rw [regIndex_error_code hr])
  | mul a b =>
    refine ⟨_, rfl, fun u h => ?_, fun e h => ?_⟩
    · obtain ⟨i, hi, h⟩ := (bind_ok_iff _ _ _).1 h
      obtain ⟨j, hj, h⟩ := (bind_ok_iff _ _ _).1 h
      exact ⟨i, j, hi, hj, by simpa [eq_comm] using h⟩
    · cases hr : regIndex a <;> cases hq : regIndex b <;> simp_all [RaisableCode]
      all_goals first | exact .inl (by rw [regIndex_error_code hr]) | exact .inl (by rw [regIndex_error_code hq])
  | add a b =>
    refine ⟨_, rfl, fun u h => ?_, fun e h => ?_⟩
    · obtain ⟨i, hi, h⟩ := (bind_ok_iff _ _ _).1 h
      obtain ⟨j, hj, h⟩ := (bind_ok_iff _ _ _).1 h
      exact ⟨i, j, hi, hj, by simpa [eq_comm] using h⟩
    · cases hr : regIndex a <;> cases hq : regIndex b <;> simp_all [RaisableCode]
      all_goals first | exact .inl (by rw [regIndex_error_code hr]) | exact .inl (by rw [regIndex_error_code hq])
  | cmp a b =>
    refine ⟨_, rfl, fun u h => ?_, fun e h => ?_⟩
    · obtain ⟨i, hi, h⟩ := (bind_ok_iff _ _ _).1 h
      obtain ⟨j, hj, h⟩ := (bind_ok_iff _ _ _).1 h
      exact ⟨i, j, hi, hj, by simpa [eq_comm] using h⟩
    · cases hr : regIndex a <;> cases hq : regIndex b <;> simp_all [RaisableCode]
      all_goals first | exact .inl (by rw [regIndex_error_code hr]) | exact .inl (by rw [regIndex_error_code hq])
  | hlt =>
    refine ⟨.ok { s with running := false }, rfl, fun u h => ?_, fun e h => by simp at h⟩
    simpa only [HandlerEffect, Except.ok.injEq, eq_comm] using h
  | push r =>
    refine ⟨_, rfl, fun u h => ?_, fun e h => ?_⟩
    · obtain ⟨i, hi, h⟩ := (bind_ok_iff _ _ _).1 h
      rw [adjustStack_dec] at h
      split at h
      · simp at h
      · rename_i h0
        simp only [ok_bind, memWrite_byte, Except.ok.injEq] at h
        exact ⟨i, hi, h0, _, rfl, h.symm⟩
    · rw [adjustStack_dec] at h
      cases hr : regIndex r with
      | error e' =>
        simp only [hr, error_bind, Except.error.injEq] at h
        exact .inl (by rw [← h, regIndex_error_code hr])
      | ok i =>
        simp only [hr, ok_bind] at h
        split at h
        · simp only [error_bind, Except.error.injEq] at h
          exact .inl (by rw [← h])
        · simp at h
  | pop r =>
    refine ⟨_, rfl, fun u h => ?_, fun e h => ?_⟩
    · obtain ⟨i, hi, h⟩ := (bind_ok_iff _ _ _).1 h
      obtain ⟨_, hu, h⟩ := (bind_ok_iff _ _ _).1 h
      rw [checkUnderflow_eq_ok] at hu
      simp only [memRead_byte, ok_bind, adjustStack_inc] at h
      split at h
      · simp at h
      · rename_i h0
        simp only [ok_bind, pure_eq_ok, Except.ok.injEq] at h
        exact ⟨i, hi, hu, _, rfl, h0, h.symm⟩
    · cases hr : regIndex r with
      | error e' =>
        simp only [hr, error_bind, Except.error.injEq] at h
        exact .inl (by rw [← h, regIndex_error_code hr])
      | ok i =>
        simp only [hr, ok_bind] at h
        rcases Nat.lt_or_ge (stackPointer s).toNat 0xF4 with hs | hs
        · simp only [checkUnderflow_ok hs, ok_bind, memRead_byte, adjustStack_inc] at h
          split at h
          · simp only [error_bind, Except.error.injEq] at h
            exact .inl (by rw [← h])
          · simp at h
        · simp only [checkUnderflow_error hs, error_bind, Except.error.injEq] at h
          exact .inr (by rw [← h])
  | call r =>
    refine ⟨_, rfl, fun u h => ?_, fun e h => ?_⟩
    · obtain ⟨i, hi, h⟩ := (bind_ok_iff _ _ _).1 h
      rw [adjustStack_dec] at h
      split at h
      · simp at h
      · rename_i h0
        simp only [ok_bind] at h
        obtain ⟨ra, hra, h⟩ := (bind_ok_iff _ _ _).1 h
        obtain ⟨hp, rfl⟩ := (returnAddress_eq_ok _ _).1 hra
        simp only [memWrite_byte, ok_bind, pure_eq_ok, Except.ok.injEq] at h
        exact ⟨i, hi, h0, hp, _, rfl, h.symm⟩
    · rw [adjustStack_dec] at h
      cases hr : regIndex r with
      | error e' =>
        simp only [hr, error_bind, Except.error.injEq] at h
        exact .inl (by rw [← h, regIndex_error_code hr])
      | ok i =>
        simp only [hr, ok_bind] at h
        split at h
        · simp only [error_bind, Except.error.injEq] at h
          exact .inl (by rw [← h])
        · simp only [ok_bind] at h
          rcases Nat.lt_or_ge 255 (s.pc + 2) with hp | hp
          · simp only [returnAddress_error hp, error_bind, Except.error.injEq] at h
            exact .inl (by rw [← h])
          · simp only [returnAddress_ok hp, ok_bind, memWrite_byte, pure_eq_ok, reduceCtorEq] at h
  | ret =>
    refine ⟨_, rfl, fun u h => ?_, fun e h => ?_⟩
    · obtain ⟨_, hu, h⟩ := (bind_ok_iff _ _ _).1 h
      rw [checkUnderflow_eq_ok] at hu
      simp only [memRead_byte, ok_bind, adjustStack_inc] at h
      split at h
      · simp at h
      · simp only [ok_bind, pure_eq_ok, Except.ok.injEq] at h
        exact ⟨hu, h.symm⟩
    · rcases Nat.lt_or_ge (stackPointer s).toNat 0xF4 with hs | hs
      · simp only [checkUnderflow_ok hs, ok_bind, memRead_byte, adjustStack_inc] at h
        split at h
        · simp only [error_bind, Except.error.injEq] at h
          exact .inl (by rw [← h])
        · simp at h
      · simp only [checkUnderflow_error hs, error_bind, Except.error.injEq] at h
        exact .inr (by rw [← h])
  | jmp r =>
    refine ⟨_, rfl, fun u h => ?_, fun e h => ?_⟩
    · obtain ⟨i, hi, h⟩ := (bind_ok_iff _ _ _).1 h
      exact ⟨i, hi, by simpa [eq_comm] using h⟩
    · cases hr : regIndex r <;> simp_all [RaisableCode]
      exact .inl (by rw [regIndex_error_code hr])
  | jne r =>
    refine ⟨_, rfl, fun u h => ?_, fun e h => ?_⟩
    · obtain ⟨i, hi, h⟩ := (bind_ok_iff _ _ _).1 h
      exact ⟨i, hi, by simpa only [pure_eq_ok, Except.ok.injEq, eq_comm] using h⟩
    · cases hr : regIndex r <;> simp_all [RaisableCode]
      exact .inl (by rw [regIndex_error_code hr])
  | jeq r =>
    refine ⟨_, rfl, fun u h => ?_, fun e h => ?_⟩
    · obtain ⟨i, hi, h⟩ := (bind_ok_iff _ _ _).1 h
      exact ⟨i, hi, by simpa only [pure_eq_ok, Except.ok.injEq, eq_comm] using h⟩
    · cases hr : regIndex r <;> simp_all [RaisableCode]
      exact .inl (by rw [regIndex_error_code hr])

/-- Everything an instruction can do when it answers a next state: its handler's effect and the engine's
advance, or a fault taken in the state it started from. -/
theorem exec_cases {i : Instr} {s t : State} (h : exec i s = .next t) :
    (∃ u, HandlerEffect s u i ∧ t = advance i.handler.opcode u) ∨
      (∃ e, RaisableCode e.code ∧ t = raiseFault s e) := by
  obtain ⟨b, hb, hok, herr⟩ := exec_eq_complete i s
  rw [hb, complete_eq_next] at h
  rcases h with ⟨u, hu, ht⟩ | ⟨e, he, ht⟩
  · exact .inl ⟨u, hok u hu, ht⟩
  · exact .inr ⟨e, herr e he, ht⟩

end Sys2Proof.Machine
end

