-- ==== Sys2Proof/Laws/Fetch.lean ====
section
/-! SUPPORT. What a fetch reads, and everything a step can do. -/

namespace Sys2Proof.Machine

/-- The window is as long as memory allows, at most three bytes, and its bytes are memory's. -/
theorem length_fetchWindow (s : State) : (fetchWindow s).length = min 3 (256 - s.pc) := by
  unfold fetchWindow
  split
  · simp; omega
  · split
    · simp; omega
    · split <;> simp <;> omega

theorem getElem_fetchWindow (s : State) (k : Nat) (h : k < (fetchWindow s).length) :
    (fetchWindow s)[k] = s.mem.read (s.pc + k) := by
  have hl := length_fetchWindow s
  unfold fetchWindow at h ⊢
  split
  · rename_i h2
    simp only [if_pos h2, List.length_cons, List.length_nil] at h
    interval_cases k <;> rfl
  · rename_i h2
    split
    · rename_i h1
      simp only [if_neg h2, if_pos h1, List.length_cons, List.length_nil] at h
      interval_cases k <;> rfl
    · rename_i h1
      split
      · rename_i h0
        simp only [if_neg h2, if_neg h1, if_pos h0, List.length_cons, List.length_nil] at h
        interval_cases k
        rfl
      · rename_i h0
        simp only [if_neg h2, if_neg h1, if_neg h0, List.length_nil, Nat.not_lt_zero] at h

/-- What the next fetch sees at each address that exists (R47): the current contents of memory. -/
theorem getElem?_fetchWindow {s : State} {k : Nat} (hk : k ≤ 2) (h : s.pc + k ≤ 255) :
    (fetchWindow s)[k]? = some (s.mem.read (s.pc + k)) := by
  have hl : k < (fetchWindow s).length := by rw [length_fetchWindow]; omega
  rw [List.getElem?_eq_getElem hl, getElem_fetchWindow]

/-- Bytes that stand at `pc` begin the window. -/
theorem fetchWindow_of_bytesAtPc {s : State} {bs : List Byte} (h : BytesAtPc s bs)
    (hl : bs.length ≤ 3) : ∃ rest, fetchWindow s = bs ++ rest := by
  refine ⟨(fetchWindow s).drop bs.length, ?_⟩
  obtain ⟨hpc, hb⟩ := h
  have hw := length_fetchWindow s
  conv_lhs => rw [← List.take_append_drop bs.length (fetchWindow s)]
  congr 1
  apply List.ext_getElem
  · rw [List.length_take]; omega
  · intro k h1 h2
    rw [List.getElem_take, getElem_fetchWindow, hb k h2]

/-- A window that begins with bytes has them standing at `pc`. -/
theorem bytesAtPc_of_fetchWindow {s : State} {bs rest : List Byte} (hne : bs ≠ [])
    (h : fetchWindow s = bs ++ rest) : BytesAtPc s bs := by
  have hw := length_fetchWindow s
  have hlen : (fetchWindow s).length = bs.length + rest.length := by rw [h, List.length_append]
  have hpos : 0 < bs.length := List.length_pos_iff.2 hne
  refine ⟨by omega, fun k hk => ?_⟩
  rw [← getElem_fetchWindow s k (by omega), List.getElem_of_eq h, List.getElem_append_left hk]

/-- The window of a `pc` in range starts with the opcode byte. -/
theorem fetchWindow_cons (s : State) (h : s.pc ≤ 255) :
    ∃ bs, fetchWindow s = s.mem.read s.pc :: bs ∧ bs.length = min 2 (255 - s.pc) := by
  have hw := length_fetchWindow s
  have hg := getElem_fetchWindow s 0 (by omega)
  cases hf : fetchWindow s with
  | nil => simp [hf] at hw; omega
  | cons b bs =>
    simp only [hf, List.getElem_cons_zero, Nat.add_zero] at hg
    simp only [hf, List.length_cons] at hw
    exact ⟨bs, by rw [hg], by omega⟩

theorem fetchWindow_nil (s : State) (h : 255 < s.pc) : fetchWindow s = [] := by
  have hw := length_fetchWindow s
  exact List.length_eq_zero_iff.1 (by omega)

/-! ### The step -/

theorem step_running (s : State) (h : s.running = true) : step s =
    match fetch s with
    | .ok i => exec i s
    | .error e => .next (raiseFault s e) := if_pos h

theorem step_stopped (s : State) (h : s.running = false) : step s = .fault (stopReason s) :=
  if_neg (by simp [h])

/-- Everything a step can do when it answers a next state. -/
theorem step_cases {s t : State} (h : step s = .next t) :
    s.running = true ∧ ((∃ i, fetch s = .ok i ∧ exec i s = .next t) ∨
      (∃ e, fetch s = .error e ∧ t = raiseFault s e)) := by
  cases hr : s.running with
  | false => simp [step_stopped s hr] at h
  | true =>
    rw [step_running s hr] at h
    cases hf : fetch s with
    | ok i => exact ⟨rfl, .inl ⟨i, rfl, by simpa [hf] using h⟩⟩
    | error e => exact ⟨rfl, .inr ⟨e, rfl, by simpa [hf, eq_comm] using h⟩⟩

theorem fetch_of_decode {s : State} {i : Instr} {rest : List Byte}
    (h : decode (fetchWindow s) = .ok (i, rest)) : fetch s = .ok i := by simp [fetch, h]

/-- A fetched instruction's own bytes stand at `pc`, all of them below 256. -/
theorem bytesAtPc_of_fetch {s : State} {i : Instr} (h : fetch s = .ok i) :
    BytesAtPc s (encode i) := by
  unfold fetch at h
  cases hf : fetchWindow s with
  | nil => simp [hf] at h
  | cons op bs =>
    rw [hf] at h
    cases hd : dispatch op with
    | none => simp [decode_cons_none bs hd] at h
    | some g =>
      rw [decode_cons_some bs hd] at h
      cases ho : decodeOperands g bs with
      | error e => simp [ho] at h
      | ok p =>
        obtain ⟨j, rest⟩ := p
        simp only [ho, Except.ok.injEq] at h
        subst h
        obtain ⟨rfl, hb⟩ := decodeOperands_ok ho
        refine bytesAtPc_of_fetchWindow (by simp [encode]) (rest := rest) ?_
        rw [hf, encode, dispatch_eq_some hd, hb]
        rfl

/-- The faults a fetch can take, and when. -/
theorem fetch_error_cases {s : State} {e : Raise} (h : fetch s = .error e) :
    (255 < s.pc ∧ e = ⟨.addressOutOfRange, s.pc⟩) ∨
    (s.pc ≤ 255 ∧ dispatch (s.mem.read s.pc) = none ∧
      e = ⟨.unknownOpcode, (s.mem.read s.pc).toNat⟩) ∨
    (s.pc ≤ 255 ∧ ∃ g, dispatch (s.mem.read s.pc) = some g ∧
      255 < s.pc + operandCount g.opcode ∧ e = ⟨.addressOutOfRange, 256⟩) := by
  rcases Nat.lt_or_ge 255 s.pc with hp | hp
  · left
    refine ⟨hp, ?_⟩
    simpa [fetch, fetchWindow_nil s hp, fetchFault, eq_comm] using h
  · obtain ⟨bs, hw, hl⟩ := fetchWindow_cons s hp
    right
    unfold fetch at h
    rw [hw] at h
    cases hd : dispatch (s.mem.read s.pc) with
    | none =>
      left
      refine ⟨hp, rfl, ?_⟩
      simpa [decode_cons_none bs hd, fetchFault, eq_comm] using h
    | some g =>
      right
      rw [decode_cons_some bs hd] at h
      have hle := operandCount_le_two g
      rcases Nat.lt_or_ge bs.length (operandCount g.opcode) with hb | hb
      · rw [decodeOperands_missing g bs hb] at h
        simp only [fetchFault, Except.error.injEq] at h
        refine ⟨hp, g, rfl, by omega, ?_⟩
        rw [← h]
        congr 1
        omega
      · exfalso
        obtain ⟨p, hok⟩ := decodeOperands_enough g bs hb
        simp [hok] at h

end Sys2Proof.Machine
end

