-- ==== Sys2Proof/Laws/PerInstr.lean ====
section
/-! SUPPORT. Statements made of every instruction as syntax, one lemma per constructor. -/

namespace Sys2Proof.Laws.OperandFields

/-- The opcode byte selects the instruction's own handler, its count field is the number of operand
bytes, and the whole instruction is one byte longer (R50, R51, R62). -/
def Statement (i : Instr) : Prop :=
  dispatch i.handler.opcode = some i.handler ∧
  i.operands.length = operandCount i.handler.opcode ∧
  (encode i).length = operandCount i.handler.opcode + 1

theorem holds (i : Instr) : Statement i :=
  ⟨dispatch_opcode _, length_operands i, length_encode i⟩

theorem ldi (r imm : Byte) : Statement (.ldi r imm) := holds _
theorem prn (r : Byte) : Statement (.prn r) := holds _
theorem mul (a b : Byte) : Statement (.mul a b) := holds _
theorem hlt : Statement .hlt := holds _
theorem push (r : Byte) : Statement (.push r) := holds _
theorem pop (r : Byte) : Statement (.pop r) := holds _
theorem add (a b : Byte) : Statement (.add a b) := holds _
theorem call (r : Byte) : Statement (.call r) := holds _
theorem ret : Statement .ret := holds _
theorem cmp (a b : Byte) : Statement (.cmp a b) := holds _
theorem jmp (r : Byte) : Statement (.jmp r) := holds _
theorem jne (r : Byte) : Statement (.jne r) := holds _
theorem jeq (r : Byte) : Statement (.jeq r) := holds _

end Sys2Proof.Laws.OperandFields
end

