-- ==== Sys2Proof/Tests/Slice0.lean ====
section
/-! SUPPORT. Small tests, each about one step or one operation, with expected results taken from the
spec's worked examples, vectors and encoding table; and, for every statement that has hypotheses, a
state and operands that meet them, clause by clause, at the ends of their ranges. -/

namespace Sys2Proof.Tests

open Sys2Proof Sys2Proof.Machine

/-! ### Helpers -/

/-- A constructed machine (FL_RESET 0xAA) with `bs` standing at `pc`. -/
def placed (pc : Nat) (bs : List Byte) : State :=
  { State.constructed 0xAA#8 with mem := Memory.storeBytes [] pc bs, pc := pc }

/-- `s` with register `i` holding `v`. -/
def reg (i : RegIndex) (v : Byte) (s : State) : State := writeReg i v s

/-- `s` with one more cell set. -/
def cell (a : Nat) (v : Byte) (s : State) : State := { s with mem := s.mem.write a v }

/-- `s` with FL set. -/
def flag (v : Byte) (s : State) : State := { s with fl := v }

/-- The outcome is a next state that passes `p`. -/
def nextIs (o : Result) (p : State → Bool) : Bool :=
  match o with
  | .next t => p t
  | _ => false

/-- The outcome is the fault `c(i)` taken in `s`, with nothing else changed. -/
def raises (s : State) (o : Result) (c : FaultCode) (op : Option Byte) (i : Int) : Bool :=
  nextIs o fun t => t == { s with fault := some ⟨c, s.pc, op, i⟩, running := false }

/-- The outcome is a next state with no fault. -/
def completes (o : Result) : Bool := nextIs o fun t => t.fault.isNone

/-- What `nextIs` means, for reading the witnesses below. -/
theorem nextIs_spec (o : Result) (p : State → Bool) :
    nextIs o p = true ↔ ∃ t, o = .next t ∧ p t = true := by
  cases o <;> simp [nextIs]

/-! ### WellFormed: each check refuses an ill-formed term -/

theorem test_wf_format_r : (Instr.push 8).wf = false ∧ (Instr.push 7).wf = true := by decide
theorem test_wf_format_ri : (Instr.ldi 8 0).wf = false ∧ (Instr.ldi 7 255).wf = true := by decide
theorem test_wf_format_rr_first : (Instr.add 8 0).wf = false := by decide
theorem test_wf_format_rr_second : (Instr.cmp 0 255).wf = false ∧ (Instr.mul 7 7).wf = true := by decide
theorem test_wf_every_register_operand :
    ([Instr.prn 8, .pop 8, .call 8, .jmp 8, .jne 8, .jeq 8, .mul 8 0, .cmp 8 0, .add 0 8,
      .mul 0 8].all fun i => !i.wf) = true := by decide

/-! ### Decoding: words written out from R50's table -/

theorem test_decode_ldi : decode [0b10000010, 0x03, 0xC8] = .ok (.ldi 3 200, []) := by decide
theorem test_decode_prn : decode [0b01000111, 0x00] = .ok (.prn 0, []) := by decide
theorem test_decode_mul : decode [0b10100010, 0x00, 0x01] = .ok (.mul 0 1, []) := by decide
theorem test_decode_hlt : decode [0b00000001, 0x00] = .ok (.hlt, [0x00]) := by decide
theorem test_decode_push : decode [0b01000101, 0x02] = .ok (.push 2, []) := by decide
theorem test_decode_pop : decode [0b01000110, 0x03] = .ok (.pop 3, []) := by decide
theorem test_decode_add : decode [0b10100000, 0x09, 0x08] = .ok (.add 9 8, []) := by decide
theorem test_decode_call : decode [0b01010000, 0x01] = .ok (.call 1, []) := by decide
theorem test_decode_ret : decode [0b00010001] = .ok (.ret, []) := by decide
theorem test_decode_cmp : decode [0b10100111, 0x00, 0x02] = .ok (.cmp 0 2, []) := by decide
theorem test_decode_jmp : decode [0b01010100, 0x07] = .ok (.jmp 7, []) := by decide
theorem test_decode_jne : decode [0b01010110, 0x03] = .ok (.jne 3, []) := by decide
theorem test_decode_jeq : decode [0b01010101, 0xFF] = .ok (.jeq 255, []) := by decide
theorem test_decode_rejects :
    decode [0xA1, 0, 1] = .error (.unknownOpcode 0xA1) ∧ decode [0x82] = .error (.missingOperand 1) ∧
    decode [0x82, 0] = .error (.missingOperand 2) ∧ decode [] = .error .noOpcode := by decide
/-- The first word is the low byte; bits above `nbits` are zero. -/
theorem test_decodeTableWord :
    decodeTableWord 24 0xC80382 = some (.ldi 3 200) ∧ decodeTableWord 8 0xC80382 = some (.ldi 0 0) ∧
    decodeTableWord 8 0x00 = none := by decide
theorem test_withFetchWord_runs :
    nextIs (step (State.reset.withFetchWord 24 0xC80382)) (fun t => t.x[3] == 200 && t.pc == 3) = true := by
  decide
/-- FL_RESET is open, and JEQ still steps from reset. -/
theorem test_jeq_steps_from_reset : completes (step (State.reset.withFetchWord 16 0x0055)) = true := by
  decide

/-! ### Instructions: the spec's vectors -/

theorem test_ldi_moves_stack_pointer_V4 :
    nextIs (step (placed 0 [0x82, 0x07, 0x10])) (fun t => t.x[7] == 0x10 && t.pc == 3) = true := by decide
theorem test_ldi_at_top_V7 :
    raises (placed 254 [0x82, 0x00]) (step (placed 254 [0x82, 0x00])) .addressOutOfRange (some 0x82) 256 = true := by
  decide
theorem test_prn_V10 : nextIs (step (reg 0 17 (placed 9 [0x47, 0x00])))
    (fun t => t.out == [17] && t.pc == 11) = true := by decide
theorem test_prn_bad_index_V13 :
    raises (placed 0 [0x47, 0x09]) (step (placed 0 [0x47, 0x09])) .addressOutOfRange (some 0x47) 9 = true := by decide
theorem test_add_wraps_V21 : nextIs (step (reg 0 200 (reg 1 100 (placed 0 [0xA0, 0x00, 0x01]))))
    (fun t => t.x[0] == 44 && t.x[1] == 100 && t.fl == 0xAA) = true := by decide
theorem test_add_first_index_first_V27 :
    raises (placed 0 [0xA0, 0x09, 0x08]) (step (placed 0 [0xA0, 0x09, 0x08])) .addressOutOfRange (some 0xA0) 9
      = true := by decide
theorem test_mul_V32 : nextIs (step (reg 0 3 (reg 1 200 (placed 0 [0xA2, 0x00, 0x01]))))
    (fun t => t.x[0] == 88 && t.x[1] == 200 && t.pc == 3) = true := by decide
theorem test_mul_square_V35 : nextIs (step (reg 0 16 (placed 0 [0xA2, 0x00, 0x00])))
    (fun t => t.x[0] == 0) = true := by decide
theorem test_cmp_unsigned_V39 : nextIs (step (reg 1 255 (placed 0 [0xA7, 0x00, 0x01])))
    (fun t => t.fl == 0x04) = true := by decide
theorem test_cmp_greater_V37 : nextIs (step (reg 0 3 (reg 2 1 (placed 0 [0xA7, 0x00, 0x02]))))
    (fun t => t.fl == 0x02 && t.x[0] == 3) = true := by decide
theorem test_push_r7_V71 : nextIs (step (placed 0 [0x45, 0x07]))
    (fun t => t.x[7] == 0xF3 && t.mem.read 0xF3 == 0xF3) = true := by decide
theorem test_push_below_zero_V73 :
    raises (reg 7 0 (reg 2 0x55 (placed 10 [0x45, 0x02]))) (step (reg 7 0 (reg 2 0x55 (placed 10 [0x45, 0x02]))))
      .addressOutOfRange (some 0x45) (-1) = true := by decide
theorem test_pop_r7_V81 : nextIs (step (reg 7 0xF3 (cell 0xF3 0x10 (placed 0 [0x46, 0x07]))))
    (fun t => t.x[7] == 0x11 && t.mem.read 0xF3 == 0x10) = true := by decide
theorem test_pop_index_before_underflow_V83 :
    raises (placed 0 [0x46, 0x08]) (step (placed 0 [0x46, 0x08])) .addressOutOfRange (some 0x46) 8 = true := by decide
theorem test_call_r7_V91 : nextIs (step (placed 0 [0x50, 0x07]))
    (fun t => t.x[7] == 0xF3 && t.mem.read 0xF3 == 2 && t.pc == 0xF3) = true := by decide
theorem test_call_at_254_V92 :
    raises (placed 254 [0x50, 0x01]) (step (placed 254 [0x50, 0x01])) .addressOutOfRange (some 0x50) 256 = true := by
  decide
theorem test_ret_V97 : nextIs (step (reg 7 0xF3 (cell 0xF3 8 (placed 14 [0x11]))))
    (fun t => t.pc == 8 && t.x[7] == 0xF4 && t.mem.read 0xF3 == 8) = true := by decide
theorem test_ret_underflow_V98 :
    raises (placed 0 [0x11]) (step (placed 0 [0x11])) .stackUnderflow (some 0x11) 0xF4 = true := by decide
theorem test_jmp_V102 : nextIs (step (placed 0 [0x54, 0x07])) (fun t => t.pc == 0xF4) = true := by decide
theorem test_jeq_V108 : nextIs (step (flag 0xFE (reg 3 29 (placed 26 [0x55, 0x03]))))
    (fun t => t.pc == 28) = true := by decide
theorem test_jeq_V109 : nextIs (step (flag 0xFF (reg 3 29 (placed 26 [0x55, 0x03]))))
    (fun t => t.pc == 29) = true := by decide
theorem test_jne_not_taken_V114 : nextIs (step (flag 0x01 (reg 3 12 (placed 20 [0x56, 0x03]))))
    (fun t => t.pc == 22) = true := by decide
theorem test_jne_taken_V113 : nextIs (step (flag 0x02 (reg 3 12 (placed 20 [0x56, 0x03]))))
    (fun t => t.pc == 12) = true := by decide
theorem test_hlt_V117 : nextIs (step (placed 255 [0x01]))
    (fun t => t.running == false && t.pc == 256 && t.fault == none) = true := by decide
theorem test_fetch_past_top_V120 :
    raises (placed 256 []) (step (placed 256 [])) .addressOutOfRange none 256 = true := by decide
theorem test_unknown_opcode_V123 :
    raises (placed 0 [0xC2]) (step (placed 0 [0xC2])) .unknownOpcode (some 0xC2) 0xC2 = true := by decide

/-! ### The ALU block: vectors V51, V54, V60 -/

theorem test_alu_sub_V51 : (alu (.op .sub) 0 1 (reg 0 3 (reg 1 5 (placed 0 [])))).toOption.map
    (fun t => t.x[0]) = some 254 := by decide
theorem test_alu_div_V54 : (alu (.op .div) 0 1 (reg 0 7 (reg 1 2 (placed 0 [])))).toOption.map
    (fun t => t.x[0]) = some 3 := by decide
theorem test_alu_div_zero_V60 :
    (match alu (.op .div) 0 1 (reg 0 9 (placed 0 [])) with
      | .error e => e == ⟨.divisionByZero, 1⟩
      | .ok _ => false) = true := by decide

/-! ### Witnesses: every statement's hypotheses can be met -/

/-- A running CORE whose bytes at `pc` are `bs`, ending at address 255. -/
theorem test_witness_RunsAs_one_byte : (placed 255 [0x01]).running = true ∧ BytesAtPc (placed 255 [0x01]) [0x01] ∧
    BytesAtPc (placed 255 [0x11]) [0x11] := by
  unfold BytesAtPc; decide
theorem test_witness_RunsAs_two_bytes :
    ∀ op ∈ [0x47#8, 0x45, 0x46, 0x50, 0x54, 0x55, 0x56], (placed 254 [op, 7]).running = true ∧
      BytesAtPc (placed 254 [op, 7]) [op, 7] := by
  unfold BytesAtPc; decide
theorem test_witness_RunsAs_three_bytes :
    ∀ op ∈ [0x82#8, 0xA0, 0xA2, 0xA7], (placed 253 [op, 7, 7]).running = true ∧
      BytesAtPc (placed 253 [op, 7, 7]) [op, 7, 7] := by
  unfold BytesAtPc; decide
theorem test_witness_EncodedInstructionRuns : (placed 253 (encode (.ldi 7 255))).running = true ∧
    BytesAtPc (placed 253 (encode (.ldi 7 255))) (encode (.ldi 7 255)) := by
  unfold BytesAtPc; decide
/-- One operand byte missing at 255; one or both missing for two operands at 254 and 255. -/
theorem test_witness_OperandsPastTopRaise :
    (∀ op ∈ [0x47#8, 0x45, 0x46, 0x50, 0x54, 0x55, 0x56, 0x82, 0xA0, 0xA2, 0xA7],
      (placed 255 [op]).running = true ∧ (placed 255 [op]).mem.read 255 = op ∧ 255 < 255 + operandCount op) ∧
    (∀ op ∈ [0x82#8, 0xA0, 0xA2, 0xA7],
      (placed 254 [op]).running = true ∧ (placed 254 [op]).mem.read 254 = op ∧ 255 < 254 + operandCount op) := by
  decide
/-- The last legal and the first illegal register operand, for every instruction's index clauses. -/
theorem test_witness_register_operand_ends :
    (0#8).toNat < 8 ∧ (7#8).toNat < 8 ∧ 7 < (8#8).toNat ∧ 7 < (255#8).toNat ∧ (6#8).toNat ≠ 7 := by decide
theorem test_witness_LengthFollowsFromOpcode : operandCount 0xC2#8 = 3 ∧
    (encode (.ldi 0 1)).head? = (encode (.ldi 7 255)).head? := by decide
theorem test_witness_StepRunsDecodedInstruction : (placed 255 [0x01]).running = true ∧
    decode (fetchWindow (placed 255 [0x01])) = .ok (.hlt, []) := by decide
theorem test_witness_FetchReadsOpcodeAtPc :
    completes (step (placed 255 [0x01])) = true ∧ (placed 256 []).running = true ∧ 255 < (placed 256 []).pc ∧
    (placed 255 []).pc ≤ 255 ∧ (fetch (placed 255 [0x01])).toOption = some .hlt := by decide
theorem test_witness_UnknownOpcodeIsFatal : (placed 255 [0xFF]).running = true ∧ (placed 255 [0xFF]).pc ≤ 255 ∧
    dispatch ((placed 255 [0xFF]).mem.read 255) = none := by decide
theorem test_witness_FirstMissingOperandFaults :
    (∀ k ∈ [1, 2], 255 < (placed (256 - k) [0x82]).pc + k ∧ (placed (256 - k) [0x82]).pc + k ≤ 256 ∧
      k ≤ operandCount Handler.ldi.opcode ∧ (placed (256 - k) [0x82]).running = true ∧
      dispatch ((placed (256 - k) [0x82]).mem.read (placed (256 - k) [0x82]).pc) = some .ldi) := by decide
theorem test_witness_StoppedCoreTakesNoStep :
    ({ placed 0 [] with running := false }).running = false ∧ ({ placed 0 [] with running := false }).fault = none ∧
    (raiseFault (placed 0 []) ⟨.unknownOpcode, 0⟩).running = false ∧
    (raiseFault (placed 0 []) ⟨.unknownOpcode, 0⟩).fault = some ⟨.unknownOpcode, 0, some 0, 0⟩ := by decide
theorem test_witness_RunningCoreAlwaysSteps : (placed 0 []).running = true := by decide
/-- Also of StepNeverRaisesAluFaults: a step that writes a record. -/
theorem test_witness_FaultTakingIsPrecise : (placed 0 []).fault = none ∧
    nextIs (step (placed 0 [])) (fun t => t.fault == some ⟨.unknownOpcode, 0, some 0, 0⟩) = true := by decide
/-- A step that goes on, HLT at 255 and a fault, each from a running state. -/
theorem test_witness_RunEndsOnlyByHaltOrFault :
    nextIs (step (placed 0 [0x54, 0])) (fun t => t.running && t.fault.isNone) = true ∧
    nextIs (step (placed 255 [0x01])) (fun t => !t.running && t.fault.isNone) = true ∧
    nextIs (step (placed 0 [0x11])) (fun t => t.fault.isSome) = true := by decide
/-- A running and a faulted state, both with listed memory, that meet the invariant. -/
theorem test_witness_StepKeepsStateInvariant : (placed 253 [0x82, 7, 255]).Inv ∧
    completes (step (placed 253 [0x82, 7, 255])) = true :=
  ⟨⟨by decide, by decide, nofun, nofun, nofun⟩, by decide⟩
theorem test_witness_ConstructionMeetsInvariant :
    nextIs (construct 0xFF (List.replicate 3 0x01)) (fun s => s.fl == 0xFF) = true := by decide
/-- Each way to 256, and the step from 256. -/
theorem test_witness_PcPasses255OnlyToEndOfMemory :
    (∀ s ∈ [placed 256 [], placed 255 [0x01], placed 254 [0x47, 0], placed 253 [0xA7, 0, 0],
      flag 0xFE (placed 254 [0x55, 0]), flag 0x01 (placed 254 [0x56, 0])],
      s.pc ≤ 256 ∧ nextIs (step s) (fun t => t.pc == 256) = true) := by decide
theorem test_witness_FlagIsResetValueOrOneHot :
    (placed 253 [0xA7, 7, 0]).fl = 0xAA#8 ∧ (flag 0x04 (placed 0 [0x01])).fl ∈ [0x04#8, 0x02#8, 0x01#8] ∧
    completes (step (placed 253 [0xA7, 7, 0])) = true ∧ completes (step (flag 0x04 (placed 0 [0x01]))) = true ∧
    (placed 0 []).fault = none ∧ completes (exec (.cmp 7 7) (placed 0 [])) = true := by decide
/-- PUSH and CALL at both ends of the pointer's range, and CALL at both sides of its return address. -/
theorem test_witness_push_and_call_pointers :
    1 ≤ ((reg 7 1 (placed 0 [])).x[7]).toNat ∧ 1 ≤ ((reg 7 255 (placed 0 [])).x[7]).toNat ∧
    (reg 7 0 (placed 0 [])).x[7] = 0#8 ∧ (placed 253 []).pc + 2 ≤ 255 ∧ 255 < (placed 254 []).pc + 2 ∧
    1 ≤ ((placed 254 []).x[7]).toNat := by decide
/-- POP and RET on both sides of the underflow bound, and POP r7 of 0xFE and of 0xFF. -/
theorem test_witness_pop_and_ret_pointers :
    ((reg 7 0xF3 (placed 0 [])).x[7]).toNat < 0xF4 ∧ ((reg 7 0 (placed 0 [])).x[7]).toNat < 0xF4 ∧
    0xF4 ≤ ((placed 0 []).x[7]).toNat ∧
    (cell 0xF3 0xFE (reg 7 0xF3 (placed 0 []))).mem.read 0xF3 ≠ 0xFF#8 ∧
    (cell 0xF3 0xFF (reg 7 0xF3 (placed 0 []))).mem.read 0xF3 = 0xFF#8 := by decide
/-- JEQ and JNE, taken and not. -/
theorem test_witness_equal_bit : (flag 0x01 (placed 0 [])).fl.getLsbD 0 = true ∧
    (flag 0xFE (placed 0 [])).fl.getLsbD 0 = false := by decide
theorem test_witness_HltClearsRunning : (placed 255 [0x01]).fault = none ∧
    nextIs (exec .hlt (placed 255 [0x01])) (fun t => t.fault.isNone && !t.running) = true := by decide
theorem test_witness_IllegalRegisterIndexRaises : (Instr.cmp 7 8).wf = false ∧
    (Instr.ldi 255 0).wf = false := by decide
theorem test_witness_EngineAdvancesByOpcodeFields :
    completes (exec .hlt (placed 255 [0x01])) = true ∧ pcMutating Handler.hlt.opcode = false ∧
    pcMutating Handler.ret.opcode = true ∧ (placed 0 []).fault = none ∧
    nextIs (exec (.ldi 8 0) (placed 0 [])) (fun t => t.fault.isSome) = true := by decide
/-- Every instruction of each frame completes somewhere, and the register-naming ones also fault. -/
theorem test_witness_frames :
    (∀ i ∈ [Instr.ldi 7 0, .add 7 7, .mul 7 7, .prn 7, .cmp 7 7, .jmp 7, .jne 7, .jeq 7, .hlt, .push 7,
      .call 7, .pop 0, .pop 7, .ret],
      completes (exec i (reg 7 0xF3 (placed 0 []))) = true) ∧
    (∀ i ∈ [Instr.ldi 8 0, .add 8 7, .mul 7 8, .prn 8, .cmp 7 8, .jmp 8, .jne 8, .jeq 8, .push 8,
      .call 8, .pop 8],
      nextIs (exec i (placed 0 [])) (fun t => t.fault.isSome) = true) ∧
    (adjustStack (stackPointer (placed 0 [])) (-1)).toOption = some 0xF3#8 ∧
    (adjustStack (stackPointer (reg 7 0 (placed 0 []))) (-1)).toOption = none := by decide
theorem test_witness_FlagWrittenByCmpReadByBranches :
    completes (exec (.jeq 7) (placed 0 [])) = true ∧ (0xFE#8).getLsbD 0 = ((placed 0 []).fl).getLsbD 0 ∧
    (placed 0 []).fault = none ∧ completes (exec (.cmp 0 7) (placed 0 [])) = true ∧
    completes (exec .hlt (placed 0 [])) = true := by decide
theorem test_witness_OutputIsOnlyAppended : completes (construct 0 []) = true ∧
    completes (exec (.prn 7) (placed 0 [])) = true ∧ completes (exec .hlt (placed 0 [])) = true := by decide
theorem test_witness_alu : ((reg 0 7 (placed 0 [])).x[0]).toNat ≠ 0 ∧ ((placed 0 []).x[0]).toNat = 0 ∧
    AluOp.div ≠ .cmp ∧ (alu (.op .div) 7 7 (placed 0 [])).toOption.isSome = true ∧
    (alu (.op .div) 7 0 (placed 0 [])).toOption = none ∧ (alu (.other 5) 7 0 (placed 0 [])).toOption = none := by
  decide
/-- PUSH then POP at the two ends of the pointer's range. -/
theorem test_witness_PushThenPopRestores :
    (∀ sp ∈ [1#8, 0xF4#8], (reg 7 sp (placed 0 [0x45])).mem.wf = true ∧
      1 ≤ ((reg 7 sp (placed 0 [0x45])).x[7]).toNat ∧ ((reg 7 sp (placed 0 [0x45])).x[7]).toNat ≤ 0xF4) := by decide
/-- A CALL that completes, and a later state with its pointer and top byte. -/
theorem test_witness_RetResumesAfterCall : (placed 0 []).mem.wf = true ∧ ((placed 0 []).x[7]).toNat ≤ 0xF4 ∧
    nextIs (exec (.call 0) (placed 253 [])) (fun t => t.fault.isNone &&
      (reg 0 9 t).x[7] == t.x[7] && (reg 0 9 t).mem.read 0xF3 == t.mem.read 0xF3) = true := by decide
theorem test_witness_StackIsLastInFirstOut :
    (∀ sp ∈ [1#8, 0xF3#8], (reg 7 sp (placed 0 [0x45])).mem.wf = true ∧
      ((reg 7 sp (placed 0 [0x45])).x[7]).toNat ≤ 0xF4 ∧
      ∀ i ∈ [Instr.push 7, .pop 6, .call 7, .ret], completes (exec i (reg 7 sp (placed 0 [0x45]))) = true) := by
  decide
theorem test_witness_StackDepthIsPushesMinusPops :
    (∀ i ∈ [Instr.push 7, .call 7, .ret, .pop 6], isStackOp i = true) ∧ (placed 0 []).x[7] = 0xF4#8 ∧
    (execAll [.push 7, .call 7, .ret, .pop 6] (placed 0 [])).isSome = true := by decide
theorem test_witness_BranchesFollowComparison :
    completes (exec (.cmp 0 7) (placed 0 [])) = true ∧ (placed 0 []).x[0] ≠ (placed 0 []).x[7] ∧
    (placed 0 []).x[0] = (placed 0 []).x[1] := by decide
theorem test_witness_LdiThenHltHoldsValue : (placed 252 [0x82, 7, 255, 0x01]).running = true ∧
    BytesAtPc (placed 252 [0x82, 7, 255, 0x01]) [0x82, 7, 255, 0x01] := by
  unfold BytesAtPc; decide
theorem test_witness_MemoryPrimitivesCheckAddress :
    (-1 : Int) < 0 ∧ (255 : Int) < 256 ∧ (0 : Int) ≤ 0 ∧ (255 : Int) ≤ 255 ∧ (placed 0 [1]).mem.wf = true := by
  decide
theorem test_witness_CanonicalMemoriesReadingAlikeAreEqual :
    Memory.wf [(0, 1#8), (255, 2#8)] = true ∧
    Memory.write (Memory.write [] 255 2#8) 0 1#8 = [(0, 1#8), (255, 2#8)] := by decide
/-- P8, with the pushed byte as the next opcode (k = 0) and, one and two cells higher, as its operand
bytes; an address the store missed; and CALL r7. -/
theorem test_witness_StoredByteIsFetchedNext :
    (∀ k ∈ [0, 1, 2], (reg 7 (BitVec.ofNat 8 (9 + k)) (placed 6 [0x45, 0])).running = true ∧
      (reg 7 (BitVec.ofNat 8 (9 + k)) (placed 6 [0x45, 0])).mem.wf = true ∧
      nextIs (step (reg 7 (BitVec.ofNat 8 (9 + k)) (placed 6 [0x45, 0]))) (fun t =>
        t.fault.isNone && t.pc + k == (t.x[7]).toNat && decide (t.pc + 2 ≤ 255)) = true ∧
      BytesAtPc (reg 7 (BitVec.ofNat 8 (9 + k)) (placed 6 [0x45, 0])) [0x45, 0]) ∧
    nextIs (step (placed 0 [0x50, 7])) (fun t => t.fault.isNone && t.pc == (t.x[7]).toNat) = true ∧
    BytesAtPc (placed 0 [0x50, 7]) [0x50, 7] := by
  unfold BytesAtPc; decide
/-- R47: a PUSH that overwrites its own operand byte runs with the operand it fetched (`45 00` at 6, with
r7 = 8, stores x[0] at 7). -/
theorem test_push_over_own_operand :
    nextIs (step (reg 0 0x2A (reg 7 8 (placed 6 [0x45, 0])))) (fun t =>
      t.mem.read 7 == 0x2A && (t.x[7]) == 7 && t.fault.isNone) = true := by decide
theorem test_witness_PcStartsAtZero : completes (construct 0xFF [0x01]) = true := by decide
theorem test_witness_LoadPlacesProgramFromZero : (List.replicate 256 (0x01#8)).length ≤ 256 ∧
    256 < (List.replicate 257 (0x01#8)).length := by
  simp only [List.length_replicate]; decide
theorem test_witness_StatusPortReportsStop : (placed 0 []).running = true ∧
    ({ placed 0 [] with running := false }).fault = none ∧
    (∀ c ∈ [FaultCode.unknownOpcode, .addressOutOfRange, .stackUnderflow, .divisionByZero,
      .unsupportedAluOperation], (raiseFault (placed 0 []) ⟨c, 0⟩).running = false ∧
      (raiseFault (placed 0 []) ⟨c, 0⟩).fault ≠ none) := by decide
theorem test_witness_TracePortShowsPcBytesAndRegisters :
    (∀ pc ∈ [253, 254, 255, 256], (traceSnapshot (placed pc [])).pc = pc) ∧ (placed 253 []).pc + 2 ≤ 255 ∧
    255 < (placed 254 []).pc + 2 ∧ (placed 254 []).pc + 1 ≤ 255 ∧ 255 < (placed 255 []).pc + 1 ∧
    (placed 255 []).pc ≤ 255 ∧ 255 < (placed 256 []).pc := by decide

end Sys2Proof.Tests
end

section
/-! PROOFS. The checks of 00_scope.md: an illegal register operand (R11) and the memory primitives (R10). -/

namespace Sys2Proof.Machine

/-! ### An illegal register operand -/

theorem regOperandOk_eq_false {v : Byte} : regOperandOk v = false ↔ 7 < v.toNat := by
  simp [regOperandOk]

/-- A handler that starts by checking an index above 7 raises, whatever it would have done next. -/
theorem complete_regIndex_error {r : Byte} (hr : 7 < r.toNat) (h : Handler) (s : State)
    (f : RegIndex → Except Raise State) :
    complete h s (regIndex r >>= f) = raised s .addressOutOfRange r.toNat := by
  rw [regIndex_error hr, error_bind, complete_error, raised]

/-- A handler that starts by checking two indices raises for the first of them that is above 7. -/
theorem complete_two_regIndex_error {a b : Byte} (hab : 7 < a.toNat ∨ 7 < b.toNat) (h : Handler)
    (s : State) (f : RegIndex → RegIndex → Except Raise State) :
    ∃ v ∈ [a, b], 7 < v.toNat ∧
      complete h s (regIndex a >>= fun i => regIndex b >>= f i) =
        raised s .addressOutOfRange v.toNat := by
  rcases Nat.lt_or_ge 7 a.toNat with ha | ha
  · exact ⟨a, by simp, ha, complete_regIndex_error ha h s _⟩
  · have hb : 7 < b.toNat := hab.resolve_left (by omega)
    refine ⟨b, by simp, hb, ?_⟩
    rw [regIndex_ok (Nat.lt_succ_of_le ha), ok_bind]
    exact complete_regIndex_error hb h s _

/-- R11 over the instruction set: every handler checks its register operands before anything else. -/
theorem exec_raises_of_not_wf (i : Instr) (s : State) (hi : i.wf = false) :
    ∃ v ∈ i.operands, 7 < v.toNat ∧ exec i s = raised s .addressOutOfRange v.toNat := by
  cases i with
  | hlt | ret => simp [Instr.wf] at hi
  | mul a b | add a b | cmp a b =>
    have hab : 7 < a.toNat ∨ 7 < b.toNat := by
      simpa only [Instr.wf, Bool.and_eq_false_iff, regOperandOk_eq_false] using hi
    exact complete_two_regIndex_error hab _ s _
  | ldi r _ | prn r | push r | pop r | call r | jmp r | jne r | jeq r =>
    have hr : 7 < r.toNat := regOperandOk_eq_false.1 hi
    exact ⟨r, List.mem_cons_self, hr, complete_regIndex_error hr _ s _⟩

/-- Settles O32: `regIndex` has its two outcomes, and each handler's first act is that check. -/
theorem illegalRegisterIndexRaises : Obligations.IllegalRegisterIndexRaises :=
  ⟨fun _ h => regIndex_ok h, fun _ h => regIndex_error h, exec_raises_of_not_wf⟩

/-! ### The memory primitives -/

/-- Everything a completed MemWrite is: its address was in range and one cell of memory is set. -/
theorem memWrite_eq_ok {a : Int} {v : Byte} {s t : State} :
    memWrite a v s = .ok t ↔ 0 ≤ a ∧ a ≤ 255 ∧ t = { s with mem := s.mem.write a.toNat v } := by
  by_cases h : a < 0 ∨ 255 < a
  · simp only [memWrite_error v s h, reduceCtorEq, false_iff]
    omega
  · have h0 : 0 ≤ a := by omega
    have h1 : a ≤ 255 := by omega
    simp only [memWrite_ok v s h0 h1, Except.ok.injEq, h0, h1, true_and]
    exact eq_comm

theorem memWrite_wf {a : Int} {v : Byte} {s t : State} (hm : s.mem.wf = true)
    (h : memWrite a v s = .ok t) : t.mem.wf = true := by
  obtain ⟨h0, h1, rfl⟩ := memWrite_eq_ok.1 h
  exact Memory.write_wf a.toNat v (by omega) s.mem hm

theorem memRead_memWrite_same {a : Int} {v : Byte} {s t : State} (hm : s.mem.wf = true)
    (h : memWrite a v s = .ok t) : memRead a t = .ok v := by
  obtain ⟨h0, h1, rfl⟩ := memWrite_eq_ok.1 h
  rw [memRead_ok _ h0 h1, Memory.read_write_same a.toNat v s.mem hm]

/-- A write changes no other MemRead: one out of range raises as before, one in range reads another
cell. -/
theorem memRead_memWrite_other {a b : Int} {v : Byte} {s t : State} (hb : b ≠ a)
    (h : memWrite a v s = .ok t) : memRead b t = memRead b s := by
  obtain ⟨h0, h1, rfl⟩ := memWrite_eq_ok.1 h
  by_cases hr : b < 0 ∨ 255 < b
  · rw [memRead_error _ hr, memRead_error _ hr]
  · rw [memRead_ok _ (by omega) (by omega), memRead_ok _ (by omega) (by omega),
      Memory.read_write_other a.toNat b.toNat v (by omega) s.mem]

/-- Settles O49: out of range both primitives raise; in range, read after write. -/
theorem memoryPrimitivesCheckAddress : Obligations.MemoryPrimitivesCheckAddress := by
  refine ⟨fun a v s h => ⟨memRead_error s h, memWrite_error v s h⟩, fun a v s h0 h1 hm => ?_⟩
  have hw := memWrite_ok v s h0 h1
  exact ⟨memRead_ok s h0 h1, _, hw, rfl, memWrite_wf hm hw, memRead_memWrite_same hm hw,
    fun b hb => memRead_memWrite_other hb hw⟩

end Sys2Proof.Machine
end

section
/-! PROOFS. Construction's `pc` (R25), and who writes and who reads FL (R28) and the output (R32). -/

namespace Sys2Proof.Machine

/-! ### Construction -/

/-- What a constructed machine is: the program loaded into the state step 1 built (R118, R119). -/
theorem construct_eq_next {f : Byte} {p : List Byte} {s : State} (h : construct f p = .next s) :
    s = load p (State.constructed f) := by
  unfold construct at h
  split at h
  · exact (Host.Outcome.next.inj h).symm
  · cases h

/-- Settles O52: construction sets `pc` to 0 and the load does not move it. -/
theorem pcStartsAtZero : Obligations.PcStartsAtZero := by
  refine ⟨constructed_pc _, fun f p s h => ?_⟩
  rw [construct_eq_next h, load_pc, constructed_pc]

/-! ### Who writes FL and the output -/

/-- No handler but CMP's writes FL, and none but PRN's writes the output. -/
theorem HandlerEffect.fl_out {s u : State} {i : Instr} (h : HandlerEffect s u i) :
    ((∀ a b, i ≠ .cmp a b) → u.fl = s.fl) ∧ ((∀ r, i ≠ .prn r) → u.out = s.out) := by
  cases i with
  | cmp a b =>
    obtain ⟨_, _, _, _, rfl⟩ := h
    exact ⟨fun hi => absurd rfl (hi a b), fun _ => rfl⟩
  | prn r =>
    obtain ⟨_, _, rfl⟩ := h
    exact ⟨fun _ => rfl, fun hi => absurd rfl (hi r)⟩
  | hlt => obtain rfl := h; exact ⟨fun _ => rfl, fun _ => rfl⟩
  | ret => obtain ⟨_, rfl⟩ := h; exact ⟨fun _ => rfl, fun _ => rfl⟩
  | ldi | jmp | jne | jeq => obtain ⟨_, _, rfl⟩ := h; exact ⟨fun _ => rfl, fun _ => rfl⟩
  | mul | add => obtain ⟨_, _, _, _, rfl⟩ := h; exact ⟨fun _ => rfl, fun _ => rfl⟩
  | push => obtain ⟨_, _, _, _, _, rfl⟩ := h; exact ⟨fun _ => rfl, fun _ => rfl⟩
  | pop => obtain ⟨_, _, _, _, rfl, _, rfl⟩ := h; exact ⟨fun _ => rfl, fun _ => rfl⟩
  | call => obtain ⟨_, _, _, _, _, _, rfl⟩ := h; exact ⟨fun _ => rfl, fun _ => rfl⟩

theorem exec_fl {i : Instr} {s t : State} (hi : ∀ a b, i ≠ .cmp a b) (h : exec i s = .next t) :
    t.fl = s.fl := by
  rcases exec_cases h with ⟨u, hu, rfl⟩ | ⟨e, -, rfl⟩
  · rw [advance_fl, hu.fl_out.1 hi]
  · rfl

theorem exec_out {i : Instr} {s t : State} (hi : ∀ r, i ≠ .prn r) (h : exec i s = .next t) :
    t.out = s.out := by
  rcases exec_cases h with ⟨u, hu, rfl⟩ | ⟨e, -, rfl⟩
  · rw [advance_out, hu.fl_out.2 hi]
  · rfl

/-- A PRN with a legal index raises nothing: it completes and appends the register it names. -/
theorem exec_prn_out {r : Byte} {s t : State} (hr : r.toNat < 8) (h : exec (.prn r) s = .next t) :
    t.out = s.out ++ [readReg ⟨r.toNat, hr⟩ s] := by
  have hx : execPrn r s = .next t := h
  rw [execPrn, regIndex_ok hr, ok_bind, pure_eq_ok, complete_ok] at hx
  rw [← Host.Outcome.next.inj hx, advance_out, emit_out]

theorem exec_out_append {i : Instr} {s t : State} (h : exec i s = .next t) :
    ∃ vs, t.out = s.out ++ vs := by
  by_cases hi : ∃ r, i = .prn r
  · obtain ⟨r, rfl⟩ := hi
    rcases exec_cases h with ⟨u, ⟨j, -, rfl⟩, rfl⟩ | ⟨e, -, rfl⟩
    · exact ⟨[readReg j s], advance_out _ _⟩
    · exact ⟨[], (List.append_nil _).symm⟩
  · exact ⟨[], by rw [exec_out (not_exists.1 hi) h, List.append_nil]⟩

/-! ### Who reads them

`State.mapFlagOut F O` changes FL and the output and nothing else. An instruction that neither reads
nor writes what `F` and `O` change passes the change through; `exec_mapFlagOut` says so once. -/

/-- The state with `F` applied to FL and `O` to the output. -/
def State.mapFlagOut (F : Byte → Byte) (O : List Byte → List Byte) (s : State) : State :=
  { s with fl := F s.fl, out := O s.out }

section mapFlagOut
variable (F : Byte → Byte) (O : List Byte → List Byte) (s : State)

@[simp] theorem mapFlagOut_pc : (s.mapFlagOut F O).pc = s.pc := rfl
@[simp] theorem mapFlagOut_fl : (s.mapFlagOut F O).fl = F s.fl := rfl
@[simp] theorem readReg_mapFlagOut (i) : readReg i (s.mapFlagOut F O) = readReg i s := rfl
@[simp] theorem stackPointer_mapFlagOut : stackPointer (s.mapFlagOut F O) = stackPointer s := rfl
@[simp] theorem memRead_mapFlagOut (a) : memRead a (s.mapFlagOut F O) = memRead a s := rfl

@[simp] theorem writeReg_mapFlagOut (i v) :
    writeReg i v (s.mapFlagOut F O) = (writeReg i v s).mapFlagOut F O := rfl
@[simp] theorem setPc_mapFlagOut (n) :
    setPc n (s.mapFlagOut F O) = (setPc n s).mapFlagOut F O := rfl
@[simp] theorem memWrite_mapFlagOut (a v) :
    memWrite a v (s.mapFlagOut F O) = State.mapFlagOut F O <$> memWrite a v s := by
  unfold memWrite; split <;> rfl

theorem raiseFault_mapFlagOut (e) :
    raiseFault (s.mapFlagOut F O) e = (raiseFault s e).mapFlagOut F O := rfl
theorem advance_mapFlagOut (op) :
    advance op (s.mapFlagOut F O) = (advance op s).mapFlagOut F O := by
  unfold advance; split <;> rfl

variable {F O s}

theorem alu_cmp_mapFlagOut (hF : ∀ v, F v = v) (i j) : alu (.op .cmp) i j (s.mapFlagOut F O) =
    State.mapFlagOut F O <$> alu (.op .cmp) i j s := by
  obtain rfl : F = id := funext hF
  rfl

/-- The end of an instruction passes the change through when its handler did. -/
theorem complete_mapFlagOut {h : Handler} {t : State} {b b' : Except Raise State}
    (hb : b' = State.mapFlagOut F O <$> b) (ht : complete h s b = .next t) :
    complete h (s.mapFlagOut F O) b' = .next (t.mapFlagOut F O) := by
  subst hb
  rcases (complete_eq_next h s t b).1 ht with ⟨u, rfl, rfl⟩ | ⟨e, rfl, rfl⟩
  · exact congrArg _ (advance_mapFlagOut F O u _)
  · exact congrArg _ (raiseFault_mapFlagOut F O s e)

/-- An instruction passes a change of FL and the output through if PRN would append to the changed
output as to the old one, a CMP's result is not changed, and a branch sees the same bit 0. -/
theorem exec_mapFlagOut {i : Instr} {t : State}
    (hprn : ∀ v, O (s.out ++ [v]) = O s.out ++ [v])
    (hcmp : ∀ a b, i = .cmp a b → ∀ v, F v = v)
    (hbranch : ∀ r, i = .jeq r ∨ i = .jne r → equalBit (F s.fl) = equalBit s.fl)
    (h : exec i s = .next t) : exec i (s.mapFlagOut F O) = .next (t.mapFlagOut F O) := by
  cases i with
  | prn r =>
    have hemit (v : Byte) : emit v (s.mapFlagOut F O) = (emit v s).mapFlagOut F O := by
      simp [emit, State.mapFlagOut, hprn]
    exact complete_mapFlagOut (by simp [map_bind, hemit]) h
  | cmp a b =>
    exact complete_mapFlagOut (by simp only [map_bind, alu_cmp_mapFlagOut (hcmp a b rfl)]) h
  | jne r =>
    exact complete_mapFlagOut (by simp [map_bind, hbranch r (.inr rfl)]) h
  | jeq r =>
    exact complete_mapFlagOut (by simp [map_bind, hbranch r (.inl rfl)]) h
  | hlt => exact complete_mapFlagOut (s := s) (b := .ok { s with running := false }) rfl h
  | ldi | mul | push | pop | add | call | ret | jmp =>
    exact complete_mapFlagOut (by simp [map_bind]) h

end mapFlagOut

/-! ### The flag -/

/-- An instruction other than CMP that, if it branches, sees the same bit 0 passes any FL through. -/
theorem exec_withFlag {i : Instr} {s t : State} {f : Byte} (hcmp : ∀ a b, i ≠ .cmp a b)
    (hbranch : ∀ r, i = .jeq r ∨ i = .jne r → equalBit f = equalBit s.fl) (h : exec i s = .next t) :
    exec i { s with fl := f } = .next { t with fl := f } :=
  exec_mapFlagOut (F := fun _ => f) (O := id) (fun _ => rfl) (fun a b hi => absurd hi (hcmp a b))
    hbranch h

/-- A CMP that completes writes all of FL and reads none of it. -/
theorem exec_cmp_withFlag {a b f : Byte} {s t : State} (h : exec (.cmp a b) s = .next t)
    (ht : t.fault = none) : exec (.cmp a b) { s with fl := f } = .next t := by
  rcases exec_cases h with ⟨u, ⟨i, j, hi, hj, rfl⟩, rfl⟩ | ⟨e, -, rfl⟩
  · show execCmp a b { s with fl := f } = _
    rw [execCmp, hi, ok_bind, hj, ok_bind, alu_cmp, complete_ok]
    rfl
  · cases ht

/-- Settles O38: `exec_fl` for who writes FL, `exec_withFlag` and `exec_cmp_withFlag` for who reads it. -/
theorem flagWrittenByCmpReadByBranches : Obligations.FlagWrittenByCmpReadByBranches := by
  refine ⟨fun i s t hi h => exec_fl hi h, fun a b f s t _ h ht => exec_cmp_withFlag h ht,
    fun i s t f hjeq hjne hcmp h => exec_withFlag hcmp (fun r hr => ?_) h,
    fun i s t f hcmp hbit h => exec_withFlag hcmp (fun _ _ => hbit) h⟩
  exact (hr.elim (hjeq r) (hjne r)).elim

/-! ### The output -/

/-- Replacing what was put out before a step by `o` leaves what the step appends. -/
theorem exec_withOut {i : Instr} {s t : State} {vs : List Byte} (h : exec i s = .next t)
    (hvs : t.out = s.out ++ vs) (o : List Byte) :
    exec i { s with out := o } = .next { t with out := o ++ vs } := by
  have key := exec_mapFlagOut (F := id) (O := fun l => o ++ l.drop s.out.length)
    (by simp) (fun _ _ _ _ => rfl) (fun _ _ => rfl) h
  simpa [State.mapFlagOut, hvs] using key

/-- Settles O39: `exec_prn_out` and `exec_out` for who appends, `exec_withOut` for who reads. -/
theorem outputIsOnlyAppended : Obligations.OutputIsOnlyAppended := by
  refine ⟨fun f p s h => ?_, fun s t r hr h => exec_prn_out hr h, fun i s t hi h => exec_out hi h,
    fun i s t h => ?_⟩
  · rw [construct_eq_next h, load_out, constructed_out]
  · obtain ⟨vs, hvs⟩ := exec_out_append h
    exact ⟨vs, hvs, exec_withOut h hvs⟩

end Sys2Proof.Machine
end

section
/-! PROOFS. 30_encoding.md: the dispatch table and the instruction's length (R51, R54, R55), the fetch of
the opcode (R55, R57), and the engine's advance (R60). -/

namespace Sys2Proof

/-! ### The dispatch table -/

@[simp] theorem mem_handlers (h : Handler) : h ∈ handlers := by cases h <;> decide

/-- The opcode table's rows, read as pairs, are the graph of `Handler.opcode`. -/
theorem mem_opcodePairs (op : Byte) (h : Handler) :
    (op, h) ∈ handlers.map (fun g => (g.opcode, g)) ↔ op = h.opcode := by
  simp only [List.mem_map, mem_handlers, true_and, Prod.mk.injEq, exists_eq_right]
  exact eq_comm

/-- Settles O3: the 13 pairs are the table's rows, and a row answers for its own opcode byte only. -/
theorem dispatchTableIsExact : Obligations.DispatchTableIsExact := fun op h =>
  (dispatch_isSome_iff op h).trans (mem_opcodePairs op h).symm

theorem dispatch_isSome_eq_true (op : Byte) :
    (dispatch op).isSome = true ↔ ∃ h : Handler, h.opcode = op :=
  Option.isSome_iff_exists.trans (exists_congr fun h => (dispatch_isSome_iff op h).trans eq_comm)

/-- The byte values with a handler are the handlers' opcodes, each once. -/
theorem filter_dispatch_isSome_perm :
    ((List.range 256).filter fun n => (dispatch (BitVec.ofNat 8 n)).isSome).Perm
      (handlers.map fun h => h.opcode.toNat) := by
  refine (List.perm_ext_iff_of_nodup (List.nodup_range.filter _) (by decide)).2 fun n => ?_
  simp only [List.mem_filter, List.mem_range, dispatch_isSome_eq_true, List.mem_map, mem_handlers,
    true_and]
  constructor
  · rintro ⟨hn, h, ho⟩
    exact ⟨h, by rw [ho, BitVec.toNat_ofNat, Nat.mod_eq_of_lt hn]⟩
  · rintro ⟨h, rfl⟩
    exact ⟨h.opcode.isLt, h, by simp⟩

/-- Of the 256 byte values, the 13 with a handler leave 243 without (R55). -/
theorem length_filter_dispatch_isNone :
    ((List.range 256).filter fun n => (dispatch (BitVec.ofNat 8 n)).isNone).length = 243 := by
  have hsplit := List.length_eq_length_filter_add (l := List.range 256)
    fun n => (dispatch (BitVec.ofNat 8 n)).isSome
  have hsome := filter_dispatch_isSome_perm.length_eq
  simp only [List.length_range, Option.not_isSome] at hsplit
  simp only [List.length_map, handlers, List.length_cons, List.length_nil] at hsome
  omega

/-! ### The length of an instruction -/

/-- No defined opcode has operand count 3 (R51). -/
theorem dispatch_eq_none_of_operandCount {op : Byte} (hc : operandCount op = 3) :
    dispatch op = none := by
  cases hd : dispatch op with
  | none => rfl
  | some h =>
    have hle := operandCount_le_two h
    rw [← dispatch_eq_some hd, hc] at hle
    omega

/-- Settles O4: `length_encode` reads the length off the first byte. -/
theorem lengthFollowsFromOpcode : Obligations.LengthFollowsFromOpcode := by
  refine ⟨fun i => ⟨length_encode i, ?_⟩, fun op => dispatch_eq_none_of_operandCount,
    fun i j hij => ?_⟩
  · have := operandCount_le_two i.handler
    rw [length_encode]
    omega
  · have hop : i.handler.opcode = j.handler.opcode := Option.some.inj hij
    rw [length_encode, length_encode, hop]

namespace Machine

/-! ### The fetch of the opcode -/

theorem fetch_of_pc_gt {s : State} (hp : 255 < s.pc) :
    fetch s = .error ⟨.addressOutOfRange, s.pc⟩ := by
  simp [fetch, fetchWindow_nil s hp, fetchFault]

theorem fetch_of_dispatch_none {s : State} (hp : s.pc ≤ 255)
    (hd : dispatch (s.mem.read s.pc) = none) :
    fetch s = .error ⟨.unknownOpcode, (s.mem.read s.pc).toNat⟩ := by
  obtain ⟨bs, hw, -⟩ := fetchWindow_cons s hp
  simp [fetch, hw, decode_cons_none bs hd, fetchFault]

/-- The opcode byte of a fetched instruction stands at `pc`, inside memory. -/
theorem opcode_of_fetch {s : State} {i : Instr} (h : fetch s = .ok i) :
    s.pc ≤ 255 ∧ s.mem.read s.pc = i.handler.opcode := by
  obtain ⟨hlen, hbytes⟩ := bytesAtPc_of_fetch h
  have hpos : 0 < (encode i).length := by rw [length_encode]; omega
  exact ⟨by omega, hbytes 0 hpos⟩

theorem step_of_fetch_error {s : State} {e : Raise} (hr : s.running = true)
    (hf : fetch s = .error e) : step s = .next (raiseFault s e) := by
  rw [step_running s hr, hf]

theorem byteAt_of_le {s : State} {a : Nat} (h : a ≤ 255) : byteAt s a = some (s.mem.read a) :=
  if_pos h

theorem byteAt_of_gt {s : State} {a : Nat} (h : 255 < a) : byteAt s a = none :=
  if_neg (Nat.not_le.2 h)

/-- Settles O7: `step_cases` for who steps, `fetch_of_pc_gt` above 255, `opcode_of_fetch` below. -/
theorem fetchReadsOpcodeAtPc : Obligations.FetchReadsOpcodeAtPc := by
  refine ⟨fun s t h => (step_cases h).1, fun s hr hp => ?_, fun s hp => ?_, fun s i h => ?_⟩
  · refine ⟨_, step_of_fetch_error hr (fetch_of_pc_gt hp), raiseFault_running _ _, ?_⟩
    rw [raiseFault_fault, byteAt_of_gt hp]
  · rw [memRead_ok s (by omega) (by omega), Int.toNat_natCast]
  · obtain ⟨hp, hop⟩ := opcode_of_fetch h
    exact ⟨hp, (dispatch_isSome_iff _ _).2 hop⟩

/-- A fault is reported as EXIT_FAULT (R113). -/
@[simp] theorem exitStatus_raiseFault (s : State) (e : Raise) :
    exitStatus (raiseFault s e) = some Config.exitFault := rfl

/-- Settles O8: the count is 256 less the 13 opcodes; the fault is the fetch's, from
`fetch_of_dispatch_none`. -/
theorem unknownOpcodeIsFatal : Obligations.UnknownOpcodeIsFatal := by
  refine ⟨length_filter_dispatch_isNone, by decide, fun s hr hp hd => ?_⟩
  refine ⟨_, step_of_fetch_error hr (fetch_of_dispatch_none hp hd), raiseFault_running _ _, ?_, ?_⟩
  · rw [raiseFault_fault, byteAt_of_le hp]
  · rw [exitStatus_raiseFault]
    decide

/-! ### The engine's advance -/

theorem advance_of_pcMutating {op : Byte} (h : pcMutating op = true) (s : State) :
    advance op s = s := if_pos h

/-- No handler that completes writes the fault record, and only the PC-mutating ones set `pc`. -/
theorem HandlerEffect.fault_pc {s u : State} {i : Instr} (h : HandlerEffect s u i) :
    u.fault = s.fault ∧ (pcMutating i.handler.opcode = true ∨ u.pc = s.pc) := by
  cases i with
  | hlt => obtain rfl := h; exact ⟨rfl, .inr rfl⟩
  | ldi | prn => obtain ⟨_, _, rfl⟩ := h; exact ⟨rfl, .inr rfl⟩
  | mul | add | cmp => obtain ⟨_, _, _, _, rfl⟩ := h; exact ⟨rfl, .inr rfl⟩
  | push => obtain ⟨_, _, _, _, _, rfl⟩ := h; exact ⟨rfl, .inr rfl⟩
  | pop => obtain ⟨_, _, _, _, rfl, _, rfl⟩ := h; exact ⟨rfl, .inr rfl⟩
  | ret => obtain ⟨_, rfl⟩ := h; exact ⟨rfl, .inl (pcMutating_opcode_eq _)⟩
  | jmp | jne | jeq => obtain ⟨_, _, rfl⟩ := h; exact ⟨rfl, .inl (pcMutating_opcode_eq _)⟩
  | call => obtain ⟨_, _, _, _, _, _, rfl⟩ := h; exact ⟨rfl, .inl (pcMutating_opcode_eq _)⟩

/-- An instruction that ends without a record completed, so the engine's advance has the last word. -/
theorem exec_pc_of_fault_none {i : Instr} {s t : State} (h : exec i s = .next t)
    (ht : t.fault = none) (hm : pcMutating i.handler.opcode = false) :
    t.pc = s.pc + operandCount i.handler.opcode + 1 := by
  rcases exec_cases h with ⟨u, hu, rfl⟩ | ⟨e, -, rfl⟩
  · have hpc : u.pc = s.pc := hu.fault_pc.2.resolve_left (by simp [hm])
    rw [advance_pc, hm, if_neg Bool.false_ne_true, hpc]
  · cases ht

/-- An instruction that writes a record took a fault, which leaves `pc` at the instruction. -/
theorem exec_pc_of_fault_some {i : Instr} {s t : State} {r : FaultRecord} (hs : s.fault = none)
    (h : exec i s = .next t) (ht : t.fault = some r) : t.pc = s.pc := by
  rcases exec_cases h with ⟨u, hu, rfl⟩ | ⟨e, -, rfl⟩
  · have hf : u.fault = none := hu.fault_pc.1.trans hs
    rw [advance_fault, hf] at ht
    cases ht
  · exact raiseFault_pc s e

/-- Settles O33: a next state is a completed handler's, advanced, or a raise, which advances nothing. -/
theorem engineAdvancesByOpcodeFields : Obligations.EngineAdvancesByOpcodeFields := by
  refine ⟨fun i s t h ht hm => exec_pc_of_fault_none h ht hm, fun h s u hm => ?_,
    fun i s t r hs h ht => exec_pc_of_fault_some hs h ht, fun h => ?_⟩
  · rw [complete_ok, advance_of_pcMutating hm]
  · simp [pcMutating_opcode]

end Machine

end Sys2Proof
end

section
/-! PROOFS. 40_load_output.md: LDI and PRN (R65, R66), and what every instruction shares with them: it
runs where its bytes stand, and its step raises where its operand bytes reach past 255. -/

namespace Sys2Proof.Machine

/-! ### Where an instruction runs -/

theorem fetch_of_bytesAtPc {s : State} {i : Instr} (h : BytesAtPc s (encode i)) :
    fetch s = .ok i := by
  have hlen : (encode i).length ≤ 3 := by
    have := operandCount_le_two i.handler
    rw [length_encode]
    omega
  obtain ⟨rest, hw⟩ := fetchWindow_of_bytesAtPc h hlen
  refine fetch_of_decode (rest := rest) ?_
  rw [hw, encode, List.cons_append, decode_opcode_cons, decodeOperands_operands]

theorem step_of_fetch_ok {s : State} {i : Instr} (hr : s.running = true) (hf : fetch s = .ok i) :
    step s = exec i s := by
  rw [step_running s hr, hf]

/-- An instruction runs wherever its encoding stands whole at `pc` (R52, R58, R61). -/
theorem runsAs_encode (i : Instr) : RunsAs (encode i) i := fun _ hr h =>
  step_of_fetch_ok hr (fetch_of_bytesAtPc h)

/-! ### Where its operand bytes are missing -/

/-- A defined opcode whose operand bytes reach past 255 faults the fetch at address 256 (R37, R101): an
instruction that was fetched would have ended inside memory. -/
theorem fetch_of_operands_past_top {s : State} {h : Handler} (hp : s.pc ≤ 255)
    (hop : s.mem.read s.pc = h.opcode) (hend : 255 < s.pc + operandCount h.opcode) :
    fetch s = .error ⟨.addressOutOfRange, 256⟩ := by
  cases hf : fetch s with
  | ok i =>
    obtain ⟨hlen, -⟩ := bytesAtPc_of_fetch hf
    obtain ⟨-, hi⟩ := opcode_of_fetch hf
    rw [length_encode, ← hi, hop] at hlen
    omega
  | error e =>
    rcases fetch_error_cases hf with ⟨hgt, -⟩ | ⟨-, hd, -⟩ | ⟨-, _, -, -, rfl⟩
    · omega
    · simp [hop] at hd
    · rfl

theorem operandsPastTopRaise_opcode (h : Handler) : OperandsPastTopRaise h.opcode :=
  fun _ hr hp hop hend => step_of_fetch_error hr (fetch_of_operands_past_top hp hop hend)

/-! ### LDI and PRN with a legal index -/

theorem advance_of_not_pcMutating {op : Byte} (h : pcMutating op = false) (s : State) :
    advance op s = setPc (s.pc + operandCount op + 1) s := if_neg (by simp [h])

theorem exec_ldi_of_lt {r imm : Byte} (hr : r.toNat < 8) (s : State) :
    exec (.ldi r imm) s = .next (setPc (s.pc + 3) (writeReg ⟨r.toNat, hr⟩ imm s)) := by
  show execLdi r imm s = _
  rw [execLdi, regIndex_ok hr, ok_bind, pure_eq_ok, complete_ok,
    advance_of_not_pcMutating (pcMutating_opcode_eq .ldi), operandCount_opcode, writeReg_pc]

theorem exec_prn_of_lt {r : Byte} (hr : r.toNat < 8) (s : State) :
    exec (.prn r) s = .next (setPc (s.pc + 2) (emit (readReg ⟨r.toNat, hr⟩ s) s)) := by
  show execPrn r s = _
  rw [execPrn, regIndex_ok hr, ok_bind, pure_eq_ok, complete_ok,
    advance_of_not_pcMutating (pcMutating_opcode_eq .prn), operandCount_opcode, emit_pc]

/-! ### The whole rules -/

/-- Settles O19: `exec_ldi_of_lt` for a legal index; an illegal one raises before anything else. -/
theorem ldiLoadsImmediate : Obligations.LdiLoadsImmediate :=
  ⟨fun r imm => runsAs_encode (.ldi r imm), fun s _ _ hr => exec_ldi_of_lt hr s,
    fun s _ _ hr => complete_regIndex_error hr .ldi s _, operandsPastTopRaise_opcode .ldi⟩

/-- Settles O20: `exec_prn_of_lt` for a legal index; an illegal one raises before anything else. -/
theorem prnEmitsRegister : Obligations.PrnEmitsRegister :=
  ⟨fun r => runsAs_encode (.prn r), fun s _ hr => exec_prn_of_lt hr s,
    fun s _ hr => complete_regIndex_error hr .prn s _, operandsPastTopRaise_opcode .prn⟩

end Sys2Proof.Machine
end

section
/-! PROOFS. 41_alu.md: the one effect of an ALU arithmetic operation (R67, R76). -/

namespace Sys2Proof.Machine

/-! ### DIV, by its divisor -/

theorem alu_div_zero {b : RegIndex} {s : State} (hb : (readReg b s).toNat = 0) (a : RegIndex) :
    alu (.op .div) a b s = .error ⟨.divisionByZero, b.val⟩ := if_pos hb

theorem alu_div_of_ne_zero {b : RegIndex} {s : State} (hb : (readReg b s).toNat ≠ 0) (a : RegIndex) :
    alu (.op .div) a b s = .ok (writeReg a (aluDiv (readReg a s) (readReg b s)) s) := if_neg hb

/-! ### The effect of an arithmetic operation -/

/-- R67 for the arithmetic operations: one that raises nothing is a write of `x[a]`. -/
theorem alu_arithmetic_eq_writeReg {o : AluOp} {a b : RegIndex} {s t : State} (ho : o ≠ .cmp)
    (h : alu (.op o) a b s = .ok t) : ∃ v, t = writeReg a v s := by
  cases o with
  | add | sub | mul => exact ⟨_, (Except.ok.inj h).symm⟩
  | div =>
    by_cases hb : (readReg b s).toNat = 0
    · rw [alu_div_zero hb] at h
      cases h
    · rw [alu_div_of_ne_zero hb] at h
      exact ⟨_, (Except.ok.inj h).symm⟩
  | cmp => exact absurd rfl ho

/-- Settles O42: a write of one register keeps FL and every other field. -/
theorem aluArithmeticWritesNoFlag : Obligations.AluArithmeticWritesNoFlag := by
  intro o a b s t ho h
  obtain ⟨v, rfl⟩ := alu_arithmetic_eq_writeReg ho h
  exact ⟨writeReg_fl a v s, v, rfl⟩

end Sys2Proof.Machine
end

section
/-! PROOFS. 43_control.md: JMP (R92), and HLT with the stop that follows it (R61, R96, R113). -/

namespace Sys2Proof.Machine

/-! ### JMP with a legal index -/

theorem exec_jmp_of_lt {r : Byte} (hr : r.toNat < 8) (s : State) :
    exec (.jmp r) s = .next (setPc (readReg ⟨r.toNat, hr⟩ s).toNat s) := by
  show execJmp r s = _
  rw [execJmp, regIndex_ok hr, ok_bind, pure_eq_ok, complete_ok,
    advance_of_pcMutating (pcMutating_opcode_eq .jmp)]

/-- Settles O28: `exec_jmp_of_lt` for a legal index; an illegal one raises before anything else. -/
theorem jmpSetsPcFromRegister : Obligations.JmpSetsPcFromRegister :=
  ⟨fun r => runsAs_encode (.jmp r), fun s _ hr => exec_jmp_of_lt hr s,
    fun s _ hr => complete_regIndex_error hr .jmp s _, operandsPastTopRaise_opcode .jmp⟩

/-! ### HLT and the stop -/

theorem exec_hlt_eq (s : State) :
    exec .hlt s = .next { s with running := false, pc := s.pc + 1 } := by
  show execHlt s = _
  rw [execHlt, complete_ok, advance_of_not_pcMutating (pcMutating_opcode_eq .hlt),
    operandCount_opcode]
  rfl

/-- HLT's one next state has stopped, with the fault record it started with. -/
theorem exec_hlt_running_fault {s t : State} (h : exec .hlt s = .next t) :
    t.running = false ∧ t.fault = s.fault := by
  obtain rfl := Host.Outcome.next.inj ((exec_hlt_eq s).symm.trans h)
  exact ⟨rfl, rfl⟩

/-- R61: a stopped CORE takes no step. -/
theorem step_ne_next_of_stopped {s : State} (hs : s.running = false) (u : State) :
    step s ≠ .next u := by
  rw [step_stopped s hs]
  exact nofun

/-- R113: a CORE that stopped without a record reports EXIT_OK. -/
theorem exitStatus_of_halted {s : State} (h : Halted s) : exitStatus s = some Config.exitOk := by
  obtain ⟨hstop, hfault⟩ := h
  simp [exitStatus, hstop, hfault]

/-- Settles O31: `exec_hlt_eq` is the whole rule; its next state has stopped without a new record. -/
theorem hltClearsRunning : Obligations.HltClearsRunning := by
  refine ⟨runsAs_encode .hlt, exec_hlt_eq, fun s t u h => ?_, fun s t hs h => ?_⟩
  · exact step_ne_next_of_stopped (exec_hlt_running_fault h).1 u
  · obtain ⟨hstop, hkept⟩ := exec_hlt_running_fault h
    exact exitStatus_of_halted ⟨hstop, hkept.trans hs⟩

end Sys2Proof.Machine
end

section
/-! PROOFS. 30_encoding.md and 60_exceptions.md: the decoder inverts the encoder (R50 to R56), and what
one step of a running and of a stopped CORE does (R57, R61, R100, R101). -/

namespace Sys2Proof

/-! ### Decode and encode -/

theorem decode_encode_append (i : Instr) (rest : List Byte) :
    decode (encode i ++ rest) = .ok (i, rest) := by
  rw [encode, List.cons_append, decode_opcode_cons, decodeOperands_operands]

theorem eq_encode_append_of_decode {bs rest : List Byte} {i : Instr}
    (h : decode bs = .ok (i, rest)) : bs = encode i ++ rest := by
  cases bs with
  | nil => cases h
  | cons op bs =>
    cases hd : dispatch op with
    | none =>
      rw [decode_cons_none bs hd] at h
      cases h
    | some g =>
      rw [decode_cons_some bs hd] at h
      obtain ⟨rfl, rfl⟩ := decodeOperands_ok h
      rw [dispatch_eq_some hd, encode, List.cons_append]

/-- Settles O1: a decoded opcode byte selects its own handler, whose operands the bytes begin with. -/
theorem decodeIffEncoded : Obligations.DecodeIffEncoded := fun _ i rest =>
  ⟨eq_encode_append_of_decode, fun h => h ▸ decode_encode_append i rest⟩

/-- Settles O2: each word is the encoding of its instruction, with nothing after it. -/
theorem writtenWordsDecode : Obligations.WrittenWordsDecode :=
  ⟨decode_encode_append (.ldi 0 8) [], decode_encode_append (.prn 0) [],
    decode_encode_append (.mul 0 1) [], decode_encode_append .hlt [],
    decode_encode_append (.push 2) [], decode_encode_append (.pop 3) [],
    decode_encode_append (.add 9 8) [], decode_encode_append (.call 1) [],
    decode_encode_append .ret [], decode_encode_append (.cmp 0 2) [],
    decode_encode_append (.jmp 7) [], decode_encode_append (.jne 3) [],
    decode_encode_append (.jeq 255) [], decode_cons_none [0#8, 1#8] (by decide)⟩

namespace Machine

/-! ### Where a step runs, and where it faults the fetch -/

/-- Settles O5: a fetch is the decoded window, and a running CORE executes what it fetched. -/
theorem stepRunsDecodedInstruction : Obligations.StepRunsDecodedInstruction :=
  fun _ _ _ hr hd => step_of_fetch_ok hr (fetch_of_decode hd)

/-- Settles O6: `runsAs_encode`, for every instruction. -/
theorem encodedInstructionRuns : Obligations.EncodedInstructionRuns := runsAs_encode

/-- Settles O9: the first address above 255 is 256, where `fetch_of_operands_past_top` faults. -/
theorem firstMissingOperandFaults : Obligations.FirstMissingOperandFaults := by
  intro s h k hr hle hgt hk hcount hd
  have htop : s.pc + k = 256 := by omega
  rw [htop]
  exact operandsPastTopRaise_opcode h s hr (by omega) (dispatch_eq_some hd) (by omega)

/-! ### Who steps -/

/-- Settles O10: `step_stopped`; the reason shown is the fault record's presence. -/
theorem stoppedCoreTakesNoStep : Obligations.StoppedCoreTakesNoStep := by
  refine fun s hs => ⟨fun hf => ?_, fun r hf => ?_⟩
  · rw [step_stopped s hs, stopReason, hf]
  · rw [step_stopped s hs, stopReason, hf]

theorem exec_is_next (i : Instr) (s : State) : ∃ t, exec i s = .next t := by
  obtain ⟨b, hb, -⟩ := exec_eq_complete i s
  rw [hb]
  exact complete_is_next i.handler s b

/-- Settles O11: a completed handler and a raise both end in a next state, and so does a fetch's fault. -/
theorem runningCoreAlwaysSteps : Obligations.RunningCoreAlwaysSteps := by
  refine ⟨exec_is_next, fun s hr => ?_⟩
  cases hf : fetch s with
  | ok i =>
    rw [step_of_fetch_ok hr hf]
    exact exec_is_next i s
  | error e => exact ⟨_, step_of_fetch_error hr hf⟩

/-! ### What a step can do -/

/-- The codes a step can write: those of its instruction, and the fetch's UnknownOpcode (R99, R101). -/
def StepRaisableCode (c : FaultCode) : Prop := c = .unknownOpcode ∨ RaisableCode c

theorem stepRaisableCode_of_fetch_error {s : State} {e : Raise} (h : fetch s = .error e) :
    StepRaisableCode e.code := by
  rcases fetch_error_cases h with ⟨-, rfl⟩ | ⟨-, -, rfl⟩ | ⟨-, _, -, -, rfl⟩
  · exact .inr (.inl rfl)
  · exact .inl rfl
  · exact .inr (.inl rfl)

/-- Everything a step can do, in one split: the fetched instruction's handler completed and the engine
advanced, or a fault was taken in the state the step started from. -/
theorem step_effect_or_fault {s t : State} (h : step s = .next t) : s.running = true ∧
    ((∃ i u, fetch s = .ok i ∧ HandlerEffect s u i ∧ t = advance i.handler.opcode u) ∨
      (∃ e, StepRaisableCode e.code ∧ t = raiseFault s e)) := by
  obtain ⟨hr, ⟨i, hf, hx⟩ | ⟨e, hf, ht⟩⟩ := step_cases h
  · rcases exec_cases hx with ⟨u, hu, ht⟩ | ⟨e, he, ht⟩
    · exact ⟨hr, .inl ⟨i, u, hf, hu, ht⟩⟩
    · exact ⟨hr, .inr ⟨e, .inr he, ht⟩⟩
  · exact ⟨hr, .inr ⟨e, stepRaisableCode_of_fetch_error hf, ht⟩⟩

/-- A record that was not there before the step was written by a raise. -/
theorem step_raised_of_new_record {s t : State} {r : FaultRecord} (hs : s.fault = none)
    (h : step s = .next t) (ht : t.fault = some r) :
    ∃ e, StepRaisableCode e.code ∧ t = raiseFault s e ∧
      r = ⟨e.code, s.pc, byteAt s s.pc, e.info⟩ := by
  obtain ⟨-, ⟨i, u, -, hu, rfl⟩ | ⟨e, he, rfl⟩⟩ := step_effect_or_fault h
  · rw [advance_fault, hu.fault_pc.1, hs] at ht
    cases ht
  · exact ⟨e, he, rfl, (Option.some.inj ht).symm⟩

/-- Settles O12: the record is a raise's, and `raiseFault` changes nothing else. -/
theorem faultTakingIsPrecise : Obligations.FaultTakingIsPrecise := by
  intro s t r hs h ht
  obtain ⟨e, -, rfl, rfl⟩ := step_raised_of_new_record hs h ht
  exact ⟨rfl, rfl, rfl⟩

/-- Settles O14: the record's code is a fetch's or an instruction's. -/
theorem stepNeverRaisesAluFaults : Obligations.StepNeverRaisesAluFaults := by
  intro s t r hs h ht
  obtain ⟨e, he, -, rfl⟩ := step_raised_of_new_record hs h ht
  exact he

/-- Of the handlers that complete, only HLT's touches `running`, and it clears it (R30). -/
theorem HandlerEffect.running {s u : State} {i : Instr} (h : HandlerEffect s u i) :
    (i = .hlt ∧ u.running = false) ∨ (i ≠ .hlt ∧ u.running = s.running) := by
  cases i with
  | hlt => obtain rfl := h; exact .inl ⟨rfl, rfl⟩
  | ret => obtain ⟨_, rfl⟩ := h; exact .inr ⟨nofun, rfl⟩
  | ldi | prn | jmp | jne | jeq => obtain ⟨_, _, rfl⟩ := h; exact .inr ⟨nofun, rfl⟩
  | mul | add | cmp => obtain ⟨_, _, _, _, rfl⟩ := h; exact .inr ⟨nofun, rfl⟩
  | push => obtain ⟨_, _, _, _, _, rfl⟩ := h; exact .inr ⟨nofun, rfl⟩
  | pop => obtain ⟨_, _, _, _, rfl, _, rfl⟩ := h; exact .inr ⟨nofun, rfl⟩
  | call => obtain ⟨_, _, _, _, _, _, rfl⟩ := h; exact .inr ⟨nofun, rfl⟩

/-- Settles O13: by `HandlerEffect.running` a completed handler goes on or is HLT's, whose byte was
fetched; the rest is a raise. -/
theorem runEndsOnlyByHaltOrFault : Obligations.RunEndsOnlyByHaltOrFault := by
  intro s t h
  obtain ⟨hr, ⟨i, u, hf, hu, rfl⟩ | ⟨e, -, rfl⟩⟩ := step_effect_or_fault h
  · have hfault : (advance i.handler.opcode u).fault = s.fault :=
      (advance_fault _ u).trans hu.fault_pc.1
    refine ⟨hr, ?_⟩
    rcases hu.running with ⟨rfl, hstop⟩ | ⟨-, hgo⟩
    · obtain ⟨hpc, hop⟩ := opcode_of_fetch hf
      exact .inr (.inl ⟨(advance_running _ u).trans hstop, hfault, hpc, hop⟩)
    · exact .inl ⟨(advance_running _ u).trans (hgo.trans hr), hfault⟩
  · exact ⟨hr, .inr (.inr ⟨e, rfl⟩)⟩

end Machine

end Sys2Proof
end

section
/-! PROOFS. 10_state.md: which registers, memory cells and control fields an instruction may change, as
facts about a handler's effect, and the frames they give. -/

namespace Sys2Proof

/-- The registers an instruction may write (R65, R77, R78, R83, R84, R89, R90): `exec_getElem_x` says
that it writes no other. -/
def Instr.writtenRegs : Instr → List Nat
  | .ldi r _ => [r.toNat]
  | .mul a _ => [a.toNat]
  | .add a _ => [a.toNat]
  | .pop r => [r.toNat, 7]
  | .push _ => [7]
  | .call _ => [7]
  | .ret => [7]
  | .prn _ => []
  | .hlt => []
  | .cmp _ _ => []
  | .jmp _ => []
  | .jne _ => []
  | .jeq _ => []

namespace Machine

/-! ### Registers -/

theorem getElem_x_writeReg {i : RegIndex} {j : Nat} (hj : j < 8) (hne : j ≠ i.val) (v : Byte)
    (s : State) : (writeReg i v s).x[j] = s.x[j] := by
  rw [writeReg_x, Vector.getElem_set_ne i.isLt hj hne.symm]

theorem HandlerEffect.getElem_x {s u : State} {i : Instr} (h : HandlerEffect s u i) {j : Nat}
    (hj : j < 8) (hn : j ∉ i.writtenRegs) : u.x[j] = s.x[j] := by
  cases i with
  | prn | jmp | jne | jeq => obtain ⟨_, _, rfl⟩ := h; rfl
  | cmp => obtain ⟨_, _, _, _, rfl⟩ := h; rfl
  | hlt => obtain rfl := h; rfl
  | ldi r imm =>
    obtain ⟨i, hi, rfl⟩ := h
    simp only [Instr.writtenRegs, List.mem_singleton, (regIndex_eq_ok r i).1 hi] at hn
    exact getElem_x_writeReg hj hn _ s
  | mul a b | add a b =>
    obtain ⟨i, _, hi, _, rfl⟩ := h
    simp only [Instr.writtenRegs, List.mem_singleton, (regIndex_eq_ok a i).1 hi] at hn
    exact getElem_x_writeReg hj hn _ s
  | push r =>
    obtain ⟨_, _, _, _, _, rfl⟩ := h
    exact getElem_x_writeReg (i := Config.spIndex) hj (List.mem_singleton.not.1 hn) _ s
  | call r =>
    obtain ⟨_, _, _, _, _, _, rfl⟩ := h
    exact getElem_x_writeReg (i := Config.spIndex) hj (List.mem_singleton.not.1 hn) _ s
  | ret =>
    obtain ⟨_, rfl⟩ := h
    exact getElem_x_writeReg (i := Config.spIndex) hj (List.mem_singleton.not.1 hn) _ _
  | pop r =>
    obtain ⟨i, hi, _, _, rfl, _, rfl⟩ := h
    simp only [Instr.writtenRegs, List.mem_cons, List.not_mem_nil, or_false, not_or,
      (regIndex_eq_ok r i).1 hi] at hn
    rw [getElem_x_writeReg (i := Config.spIndex) hj hn.2, getElem_x_writeReg hj hn.1]

theorem exec_getElem_x {i : Instr} {s t : State} (h : exec i s = .next t) {j : Nat} (hj : j < 8)
    (hn : j ∉ i.writtenRegs) : t.x[j] = s.x[j] := by
  rcases exec_cases h with ⟨u, hu, rfl⟩ | ⟨e, -, rfl⟩
  · simp only [advance_x, hu.getElem_x hj hn]
  · rfl

theorem exec_x {i : Instr} {s t : State} (h : exec i s = .next t) (hn : i.writtenRegs = []) :
    t.x = s.x :=
  Vector.ext fun _ hj => exec_getElem_x h hj (by simp [hn])

/-! ### Memory -/

/-- A handler stores nothing, or is PUSH's or CALL's and stores at the decremented pointer. -/
theorem HandlerEffect.mem_cases {s u : State} {i : Instr} (h : HandlerEffect s u i) :
    u.mem = s.mem ∨ (isPush i = true ∧ stackPointer s ≠ 0#8 ∧
      ∃ v, u.mem = s.mem.write (stackPointer s - 1#8).toNat v) := by
  cases i with
  | hlt => obtain rfl := h; exact .inl rfl
  | ret => obtain ⟨_, rfl⟩ := h; exact .inl rfl
  | ldi | prn | jmp | jne | jeq => obtain ⟨_, _, rfl⟩ := h; exact .inl rfl
  | mul | add | cmp => obtain ⟨_, _, _, _, rfl⟩ := h; exact .inl rfl
  | pop => obtain ⟨_, _, _, _, rfl, _, rfl⟩ := h; exact .inl rfl
  | push => obtain ⟨_, _, h0, _, rfl, rfl⟩ := h; exact .inr ⟨rfl, h0, _, rfl⟩
  | call => obtain ⟨_, _, h0, _, _, rfl, rfl⟩ := h; exact .inr ⟨rfl, h0, _, rfl⟩

theorem exec_mem {i : Instr} {s t : State} (h : exec i s = .next t) (hi : isPush i = false) :
    t.mem = s.mem := by
  rcases exec_cases h with ⟨u, hu, rfl⟩ | ⟨e, -, rfl⟩
  · rw [advance_mem]
    exact hu.mem_cases.resolve_right fun hp => by simp [hi] at hp
  · rfl

/-- Whatever an instruction stores, it stores at the address the pointer's decrement gives. -/
theorem exec_read_mem_other {i : Instr} {s t : State} {n : Byte} {a : Nat}
    (h : exec i s = .next t) (hn : adjustStack (stackPointer s) (-1) = .ok n) (ha : a ≠ n.toNat) :
    t.mem.read a = s.mem.read a := by
  rcases exec_cases h with ⟨u, hu, rfl⟩ | ⟨e, -, rfl⟩
  · rw [advance_mem]
    rcases hu.mem_cases with hm | ⟨-, h0, v, hm⟩
    · rw [hm]
    · rw [adjustStack_dec, if_neg h0, Except.ok.injEq] at hn
      rw [hm, hn, Memory.read_write_other n.toNat a v ha]
  · rfl

/-- Where the pointer cannot be decremented, nothing is stored. -/
theorem exec_mem_of_adjustStack_error {i : Instr} {s t : State} {e : Raise}
    (h : exec i s = .next t) (he : adjustStack (stackPointer s) (-1) = .error e) :
    t.mem = s.mem := by
  rcases exec_cases h with ⟨u, hu, rfl⟩ | ⟨e, -, rfl⟩
  · rw [advance_mem]
    refine hu.mem_cases.resolve_right fun ⟨_, h0, _⟩ => ?_
    rw [adjustStack_dec, if_neg h0] at he
    cases he
  · rfl

/-! ### Control -/

theorem exec_controlKept {i : Instr} {s t : State} (h : exec i s = .next t) (hi : i ≠ .hlt) :
    ControlKept s t := by
  rcases exec_cases h with ⟨u, hu, rfl⟩ | ⟨e, -, rfl⟩
  · have hrun : u.running = s.running :=
      (hu.running.resolve_left fun hh => hi hh.1).2
    exact .inl ⟨(advance_running _ u).trans hrun, (advance_fault _ u).trans hu.fault_pc.1⟩
  · exact .inr ⟨e, rfl⟩

/-! ### The frames -/

/-- Settles O34: the three write `x[d]` alone, store nothing, and are neither CMP, PRN nor HLT. -/
theorem registerWritersFrame : Obligations.RegisterWritersFrame := by
  intro s t d o i hi h
  have hregs : i.writtenRegs = [d.toNat] ∧ isPush i = false ∧ (∀ a b, i ≠ .cmp a b) ∧
      (∀ r, i ≠ .prn r) ∧ i ≠ .hlt := by
    simp only [List.mem_cons, List.not_mem_nil, or_false] at hi
    rcases hi with rfl | rfl | rfl <;> exact ⟨rfl, rfl, nofun, nofun, nofun⟩
  obtain ⟨hw, hpush, hcmp, hprn, hhlt⟩ := hregs
  exact ⟨fun j hj hne => exec_getElem_x h hj (by simpa [hw] using hne), exec_fl hcmp h,
    exec_out hprn h, fun a => by rw [exec_mem h hpush], exec_controlKept h hhlt⟩

/-- Settles O35: none of them has a written register or a store; the exceptions are named by
`exec_out`, `exec_fl`, `exec_controlKept` and `exec_hlt_running_fault`. -/
theorem nonWritersFrame : Obligations.NonWritersFrame := by
  refine fun s t r o => ⟨fun i hi h => ?_, fun i hi h => exec_out ?_ h, fun i hi h => exec_fl ?_ h,
    fun i hi h => exec_controlKept h ?_, exec_hlt_running_fault⟩
  · have hnone : i.writtenRegs = [] ∧ isPush i = false := by
      simp only [List.mem_cons, List.not_mem_nil, or_false] at hi
      rcases hi with rfl | rfl | rfl | rfl | rfl | rfl <;> exact ⟨rfl, rfl⟩
    exact ⟨exec_x h hnone.1, fun a => by rw [exec_mem h hnone.2]⟩
  · rintro _ rfl
    simp at hi
  · rintro _ _ rfl
    simp at hi
  · rintro rfl
    simp at hi

/-- Settles O36: the two write `x[7]` alone and store at the address the decrement gives, if it gives
one. -/
theorem storingInstructionsFrame : Obligations.StoringInstructionsFrame := by
  intro s t r i hi h
  have hregs : i.writtenRegs = [7] ∧ (∀ a b, i ≠ .cmp a b) ∧ (∀ r, i ≠ .prn r) ∧ i ≠ .hlt := by
    simp only [List.mem_cons, List.not_mem_nil, or_false] at hi
    rcases hi with rfl | rfl <;> exact ⟨rfl, nofun, nofun, nofun⟩
  obtain ⟨hw, hcmp, hprn, hhlt⟩ := hregs
  refine ⟨fun j hj hne => exec_getElem_x h hj (by simpa [hw] using hne), exec_fl hcmp h,
    exec_out hprn h, fun n hn a ha => exec_read_mem_other h hn ha,
    fun e he a => by rw [exec_mem_of_adjustStack_error h he], ?_, exec_controlKept h hhlt⟩
  rintro ⟨e, rfl⟩ a
  rfl

/-- Settles O37: POP writes its destination and `x[7]`, RET `x[7]`; neither stores. -/
theorem poppingInstructionsFrame : Obligations.PoppingInstructionsFrame := by
  refine ⟨fun s t r h => ⟨fun j hj h7 hr => exec_getElem_x h hj ?_, exec_fl (i := .pop r) nofun h,
    exec_out (i := .pop r) nofun h, fun a => by rw [exec_mem h rfl], exec_controlKept h nofun⟩,
    fun s t h => ⟨fun j hj h7 => exec_getElem_x h hj ?_, exec_fl (i := .ret) nofun h,
    exec_out (i := .ret) nofun h, fun a => by rw [exec_mem h rfl], exec_controlKept h nofun⟩⟩
  · simp [Instr.writtenRegs, h7, hr]
  · simp [Instr.writtenRegs, h7]

end Machine

end Sys2Proof
end

section
/-! PROOFS. 10_state.md and 70_reset_and_hazards.md: construction and the load, the state invariant, and
the ranges of `pc` and FL, each a step lemma over the effects of the handlers. -/

namespace Sys2Proof.Machine

/-! ### Construction, the load and reset -/

theorem construct_of_length_le {p : List Byte} (hp : p.length ≤ 256) (f : Byte) :
    construct f p = .next (load p (State.constructed f)) := if_pos hp

theorem construct_of_length_gt {p : List Byte} (hp : 256 < p.length) (f : Byte) :
    construct f p = .refused (.programTooLong p.length) := if_neg (Nat.not_le.2 hp)

theorem length_le_of_construct_eq_next {f : Byte} {p : List Byte} {s : State}
    (h : construct f p = .next s) : p.length ≤ 256 := by
  rcases Nat.lt_or_ge 256 p.length with hp | hp
  · rw [construct_of_length_gt hp] at h
    cases h
  · exact hp

/-- Settles O54: the stored program over an empty memory, which reads as the fill value elsewhere. -/
theorem loadPlacesProgramFromZero : Obligations.LoadPlacesProgramFromZero := by
  refine fun f p => ⟨fun hp => ⟨_, construct_of_length_le hp f, fun k hk => ?_, fun a ha => ?_,
    rfl, rfl⟩, fun hp => construct_of_length_gt hp f⟩
  · have hread := Memory.read_storeBytes p 0 k [] hk (by omega) rfl
    rwa [Nat.zero_add] at hread
  · rw [load_mem, constructed_mem, Memory.read_storeBytes_other p 0 a [] (by omega),
      Memory.read_nil]

theorem constructed_getElem_x (f : Byte) {j : Nat} (hj : j < 8) :
    (State.constructed f).x[j] = if j = 7 then 0xF4#8 else 0x00#8 := by
  interval_cases j <;> rfl

/-- Settles O53: reset is construction with FL the open parameter. -/
theorem resetStateIsAsConstructed : Obligations.ResetStateIsAsConstructed :=
  ⟨fun _ => rfl, fun _ hj => constructed_getElem_x _ hj, constructed_pc _, constructed_fl _,
    constructed_running _, constructed_fault _, constructed_out _⟩

/-! ### The state invariant -/

/-- Without a fault record the invariant is memory's form and `pc`'s range. -/
theorem inv_of_fault_none {s : State} (hm : s.mem.wf = true) (hpc : s.pc ≤ 258)
    (hf : s.fault = none) : s.Inv where
  memCanonical := hm
  pcInRange := hpc
  faultStops r hr := by simp [hf] at hr
  faultPc r hr := by simp [hf] at hr
  faultOpcode r hr := by simp [hf] at hr

/-- The record a raise writes describes the state the raise leaves (R31, R100). -/
theorem raiseFault_inv {s : State} (hm : s.mem.wf = true) (hpc : s.pc ≤ 258) (e : Raise) :
    (raiseFault s e).Inv where
  memCanonical := hm
  pcInRange := hpc
  faultStops _ _ := rfl
  faultPc r hr := by
    obtain rfl := Option.some.inj hr
    rfl
  faultOpcode r hr := by
    obtain rfl := Option.some.inj hr
    rfl

theorem State.Inv.fault_of_running {s : State} (h : s.Inv) (hr : s.running = true) :
    s.fault = none :=
  Option.eq_none_iff_forall_ne_some.2 fun r hf => by simp [h.faultStops r hf] at hr

theorem HandlerEffect.mem_wf {s u : State} {i : Instr} (h : HandlerEffect s u i)
    (hm : s.mem.wf = true) : u.mem.wf = true := by
  rcases h.mem_cases with he | ⟨-, -, v, he⟩
  · rwa [he]
  · rw [he]
    exact Memory.write_wf _ v (stackPointer s - 1#8).isLt s.mem hm

theorem constructed_load_inv (f : Byte) {p : List Byte} (hp : p.length ≤ 256) :
    (load p (State.constructed f)).Inv :=
  inv_of_fault_none (Memory.storeBytes_wf p 0 [] (by omega) rfl) (by simp) rfl

/-- Settles O16: a load below 256 keeps the empty memory's form, and no record is there. -/
theorem constructionMeetsInvariant : Obligations.ConstructionMeetsInvariant := by
  refine ⟨constructed_load_inv Config.flReset (p := []) (by simp), fun f p s h => ?_⟩
  rw [construct_eq_next h]
  exact constructed_load_inv f (length_le_of_construct_eq_next h)

/-! ### The range of `pc` -/

/-- Where a completed instruction leaves `pc`: at a byte (CALL, RET and a jump taken), past its own
bytes as its opcode's fields say, or past them by a branch not taken (R60, R89, R90, R92 to R94). -/
theorem HandlerEffect.advance_pc_cases {s u : State} {i : Instr} (h : HandlerEffect s u i) :
    (∃ b : Byte, (advance i.handler.opcode u).pc = b.toNat) ∨
    (pcMutating i.handler.opcode = false ∧
      (advance i.handler.opcode u).pc = s.pc + operandCount i.handler.opcode + 1) ∨
    ((advance i.handler.opcode u).pc = s.pc + 2 ∧
      (i.handler = .jeq ∧ equalBit s.fl = false ∨ i.handler = .jne ∧ equalBit s.fl = true)) := by
  by_cases hm : pcMutating i.handler.opcode = false
  · have hpc : u.pc = s.pc := h.fault_pc.2.resolve_left (by simp [hm])
    refine .inr (.inl ⟨hm, ?_⟩)
    rw [advance_of_not_pcMutating hm, setPc_pc, hpc]
  · rw [advance_of_pcMutating (Bool.not_eq_false _ ▸ hm)]
    cases i with
    | ldi | prn | mul | hlt | push | pop | add | cmp => exact absurd (pcMutating_opcode_eq _) hm
    | call => obtain ⟨_, _, _, _, _, _, rfl⟩ := h; exact .inl ⟨_, rfl⟩
    | ret => obtain ⟨_, rfl⟩ := h; exact .inl ⟨_, rfl⟩
    | jmp => obtain ⟨_, _, rfl⟩ := h; exact .inl ⟨_, rfl⟩
    | jne =>
      obtain ⟨_, _, rfl⟩ := h
      cases hb : equalBit s.fl with
      | true => exact .inr (.inr ⟨rfl, .inr ⟨rfl, rfl⟩⟩)
      | false => exact .inl ⟨_, rfl⟩
    | jeq =>
      obtain ⟨_, _, rfl⟩ := h
      cases hb : equalBit s.fl with
      | true => exact .inl ⟨_, rfl⟩
      | false => exact .inr (.inr ⟨rfl, .inl ⟨rfl, rfl⟩⟩)

/-- A fetched instruction's bytes end inside memory. -/
theorem pc_add_operandCount_lt {s : State} {i : Instr} (h : fetch s = .ok i) :
    s.pc + operandCount i.handler.opcode < 256 := by
  obtain ⟨hlen, -⟩ := bytesAtPc_of_fetch h
  rw [length_encode] at hlen
  omega

/-- The end of memory is the furthest a completed step moves `pc` (R24). -/
theorem advance_pc_le {s u : State} {i : Instr} (hf : fetch s = .ok i) (hu : HandlerEffect s u i) :
    (advance i.handler.opcode u).pc ≤ 256 := by
  have hend := pc_add_operandCount_lt hf
  rcases hu.advance_pc_cases with ⟨b, hb⟩ | ⟨-, hpc⟩ | ⟨hpc, hbranch⟩
  · have := b.isLt
    omega
  · omega
  · have hcount : operandCount i.handler.opcode = 1 := by
      rcases hbranch with ⟨hi, -⟩ | ⟨hi, -⟩ <;> rw [hi] <;> rfl
    omega

/-- Settles O15: a completed step writes no record, keeps memory's form and moves `pc` to 256 at most;
a raise keeps memory and `pc`, and its record is this state's. -/
theorem stepKeepsStateInvariant : Obligations.StepKeepsStateInvariant := by
  intro s t hs h
  obtain ⟨hr, ⟨i, u, hf, hu, rfl⟩ | ⟨e, -, rfl⟩⟩ := step_effect_or_fault h
  · refine inv_of_fault_none ?_ ((advance_pc_le hf hu).trans (by omega)) ?_
    · rw [advance_mem]
      exact hu.mem_wf hs.memCanonical
    · rw [advance_fault, hu.fault_pc.1, hs.fault_of_running hr]
  · exact raiseFault_inv hs.memCanonical hs.pcInRange e

/-- The opcodes of the instructions that end at 255 and are passed by the engine's advance. -/
theorem opcode_of_end_at_255 {s : State} {h : Handler} (hm : pcMutating h.opcode = false)
    (hop : s.mem.read s.pc = h.opcode) (hend : s.pc + operandCount h.opcode + 1 = 256) :
    (s.pc = 255 ∧ s.mem.read 255 = 0x01#8) ∨
    (s.pc = 254 ∧ s.mem.read 254 ∈ [0x47#8, 0x45#8, 0x46#8]) ∨
    (s.pc = 253 ∧ s.mem.read 253 ∈ [0x82#8, 0xA0#8, 0xA2#8, 0xA7#8]) := by
  rw [operandCount_opcode] at hend
  cases h with
  | call | ret | jmp | jne | jeq => cases hm
  | hlt =>
    have hpc : s.pc = 255 := by simpa using hend
    exact .inl ⟨hpc, hpc ▸ hop⟩
  | prn | push | pop =>
    have hpc : s.pc = 254 := by simpa using hend
    rw [hpc] at hop
    exact .inr (.inl ⟨hpc, by rw [hop]; decide⟩)
  | ldi | mul | add | cmp =>
    have hpc : s.pc = 253 := by simpa using hend
    rw [hpc] at hop
    exact .inr (.inr ⟨hpc, by rw [hop]; decide⟩)

/-- Settles O17: a raise does not move `pc`; a completed step reaches 256 only by the advance or by a
branch not taken, from an instruction that ends at 255. -/
theorem pcPasses255OnlyToEndOfMemory : Obligations.PcPasses255OnlyToEndOfMemory := by
  intro s t hs h
  obtain ⟨-, ⟨i, u, hf, hu, rfl⟩ | ⟨e, -, rfl⟩⟩ := step_effect_or_fault h
  · refine ⟨advance_pc_le hf hu, fun h256 => .inr ?_⟩
    obtain ⟨-, hop⟩ := opcode_of_fetch hf
    rcases hu.advance_pc_cases with ⟨b, hb⟩ | ⟨hm, hpc⟩ | ⟨hpc, hbranch⟩
    · have := b.isLt
      omega
    · rcases opcode_of_end_at_255 hm hop (hpc.symm.trans h256) with h | h | h
      · exact .inl h
      · exact .inr (.inl h)
      · exact .inr (.inr (.inl h))
    · have h254 : s.pc = 254 := by omega
      rw [h254] at hop
      rcases hbranch with ⟨hi, hbit⟩ | ⟨hi, hbit⟩
      · exact .inr (.inr (.inr (.inl ⟨h254, hop.trans (congrArg Handler.opcode hi), hbit⟩)))
      · exact .inr (.inr (.inr (.inr ⟨h254, hop.trans (congrArg Handler.opcode hi), hbit⟩)))
  · exact ⟨hs, .inl⟩

/-! ### The values of FL -/

theorem compareFlags_mem (u v : Byte) : compareFlags u v ∈ [0x04#8, 0x02#8, 0x01#8] := by
  rcases compareFlags_cases u v with ⟨-, h⟩ | ⟨-, h⟩ | ⟨-, h⟩ <;> simp [h]

/-- A CMP that completes leaves one of the three one-bit values, whatever FL was (R73, R79). -/
theorem HandlerEffect.fl_of_cmp {s u : State} {a b : Byte} (h : HandlerEffect s u (.cmp a b)) :
    u.fl ∈ [0x04#8, 0x02#8, 0x01#8] := by
  obtain ⟨i, j, -, -, rfl⟩ := h
  exact compareFlags_mem _ _

theorem HandlerEffect.fl_eq_or_mem {s u : State} {i : Instr} (h : HandlerEffect s u i) :
    u.fl = s.fl ∨ u.fl ∈ [0x04#8, 0x02#8, 0x01#8] := by
  by_cases hi : ∃ a b, i = .cmp a b
  · obtain ⟨a, b, rfl⟩ := hi
    exact .inr h.fl_of_cmp
  · exact .inl (h.fl_out.1 fun a b hab => hi ⟨a, b, hab⟩)

theorem step_fl_eq_or_mem {s t : State} (h : step s = .next t) :
    t.fl = s.fl ∨ t.fl ∈ [0x04#8, 0x02#8, 0x01#8] := by
  obtain ⟨-, ⟨i, u, -, hu, rfl⟩ | ⟨e, -, rfl⟩⟩ := step_effect_or_fault h
  · rw [advance_fl]
    exact hu.fl_eq_or_mem
  · exact .inl rfl

/-- Settles O18: a step keeps FL or writes a comparison's value, and a completed CMP writes one. -/
theorem flagIsResetValueOrOneHot : Obligations.FlagIsResetValueOrOneHot := by
  refine ⟨fun f s t hs h => ?_, fun a b s t _ h ht => ?_⟩
  · rcases step_fl_eq_or_mem h with he | hmem
    · rwa [he]
    · exact .inr hmem
  · rcases exec_cases h with ⟨u, hu, rfl⟩ | ⟨e, -, rfl⟩
    · rw [advance_fl]
      exact hu.fl_of_cmp
    · cases ht

end Sys2Proof.Machine
end

section
/-! PROOFS. The canonical form of memory determines its data (log entry 21), and the read-only ports
(R99, R113, R115). -/

namespace Sys2Proof.Machine

/-! ### Canonical memories -/

theorem Memory.read_cons_same (k : Nat) (v : Byte) (m : Memory) :
    Memory.read ((k, v) :: m) k = v := if_pos rfl

theorem Memory.read_cons_other {k a : Nat} (h : a ≠ k) (v : Byte) (m : Memory) :
    Memory.read ((k, v) :: m) a = m.read a := if_neg h.symm

/-- A canonical memory lists no address below its first one, so a cell that reads otherwise than the
fill value stands at or above it. -/
theorem Memory.head_le_of_read_ne {l a : Nat} {w : Byte} {n : Memory}
    (hn : Memory.wf ((l, w) :: n) = true) (ha : Memory.read ((l, w) :: n) a ≠ Config.memFill) :
    l ≤ a := by
  by_contra hlt
  obtain ⟨-, -, hall, -⟩ := (Memory.wf_cons l w n).1 hn
  refine ha (Memory.read_of_all_lt a _ ?_)
  simp only [List.all_cons, Bool.and_eq_true, decide_eq_true_eq, List.all_eq_true] at hall ⊢
  exact ⟨by omega, fun c hc => by have := hall c hc; omega⟩

/-- The first cell of a canonical memory stands in any other that reads alike, and the other's first
cell is no later. -/
theorem Memory.head_le_head {k l : Nat} {v w : Byte} {m n : Memory}
    (hm : Memory.wf ((k, v) :: m) = true) (hn : Memory.wf ((l, w) :: n) = true)
    (h : ∀ a, Memory.read ((k, v) :: m) a = Memory.read ((l, w) :: n) a) : l ≤ k := by
  obtain ⟨-, hv, -, -⟩ := (Memory.wf_cons k v m).1 hm
  refine Memory.head_le_of_read_ne hn ?_
  rwa [← h k, Memory.read_cons_same]

/-- What follows the first cell of a canonical memory reads as the fill value there. -/
theorem Memory.read_tail_head {k : Nat} {v : Byte} {m : Memory}
    (hm : Memory.wf ((k, v) :: m) = true) : m.read k = Config.memFill := by
  obtain ⟨-, -, hall, -⟩ := (Memory.wf_cons k v m).1 hm
  exact Memory.read_of_all_lt k m hall

theorem Memory.cons_read_ne_nil {k : Nat} {v : Byte} {m : Memory}
    (hm : Memory.wf ((k, v) :: m) = true) : ∃ a, Memory.read ((k, v) :: m) a ≠ Memory.read [] a := by
  obtain ⟨-, hv, -, -⟩ := (Memory.wf_cons k v m).1 hm
  exact ⟨k, by rwa [Memory.read_cons_same, Memory.read_nil]⟩

theorem Memory.eq_of_read_eq : ∀ m n : Memory, m.wf = true → n.wf = true →
    (∀ a, m.read a = n.read a) → m = n
  | [], [], _, _, _ => rfl
  | [], (l, w) :: n, _, hn, h => by
    obtain ⟨a, ha⟩ := Memory.cons_read_ne_nil hn
    exact absurd (h a).symm ha
  | (k, v) :: m, [], hm, _, h => by
    obtain ⟨a, ha⟩ := Memory.cons_read_ne_nil hm
    exact absurd (h a) ha
  | (k, v) :: m, (l, w) :: n, hm, hn, h => by
    obtain rfl : k = l := le_antisymm (Memory.head_le_head hn hm fun a => (h a).symm)
      (Memory.head_le_head hm hn h)
    obtain rfl : v = w := by simpa only [Memory.read_cons_same] using h k
    have htail (a : Nat) : Memory.read m a = Memory.read n a := by
      by_cases ha : a = k
      · rw [ha, Memory.read_tail_head hm, Memory.read_tail_head hn]
      · simpa only [Memory.read_cons_other ha] using h a
    obtain ⟨-, -, -, hm'⟩ := (Memory.wf_cons k v m).1 hm
    obtain ⟨-, -, -, hn'⟩ := (Memory.wf_cons k v n).1 hn
    rw [Memory.eq_of_read_eq m n hm' hn' htail]

/-- Settles O50: the first cells agree, for neither can stand before the other; then the rest do. -/
theorem canonicalMemoriesReadingAlikeAreEqual :
    Obligations.CanonicalMemoriesReadingAlikeAreEqual := Memory.eq_of_read_eq

/-! ### The status and trace ports -/

theorem exitStatus_of_running {s : State} (h : s.running = true) : exitStatus s = none := if_pos h

theorem exitStatus_of_faulted {s : State} (h : Faulted s) : exitStatus s = some Config.exitFault := by
  obtain ⟨hstop, hfault⟩ := h
  simp [exitStatus, hstop, Option.isSome_iff_ne_none.2 hfault]

theorem statusCode_of_none {s : State} (h : s.fault = none) : statusCode s = 0 := by
  rw [statusCode, h]

theorem statusCode_of_some {s : State} {r : FaultRecord} (h : s.fault = some r) :
    statusCode s = r.code.number := by
  rw [statusCode, h]

theorem FaultCode.number_ne_zero (c : FaultCode) : c.number ≠ 0 := by cases c <;> decide

/-- Settles O55: the exit status by how the CORE stopped, the code by the record. -/
theorem statusPortReportsStop : Obligations.StatusPortReportsStop := by
  refine ⟨fun s => exitStatus_of_running, fun s h => ⟨exitStatus_of_halted h, statusCode_of_none h.2⟩,
    fun s h => ⟨exitStatus_of_faulted h, ?_⟩, fun s r h => ?_⟩
  · obtain ⟨r, hr⟩ := Option.ne_none_iff_exists'.1 h.2
    rw [statusCode_of_some hr]
    exact r.code.number_ne_zero
  · rw [statusCode_of_some h]
    cases r.code <;> rfl

/-- Settles O56: each byte shown is `byteAt` of its address. -/
theorem tracePortShowsPcBytesAndRegisters : Obligations.TracePortShowsPcBytesAndRegisters :=
  fun _ => ⟨rfl, rfl, byteAt_of_le, byteAt_of_gt, byteAt_of_le, byteAt_of_gt, byteAt_of_le,
    byteAt_of_gt⟩

end Sys2Proof.Machine
end

section
/-! PROOFS. 41_alu.md: the ALU's five operations and its two faults (R67 to R76), and ADD, MUL and CMP
(R77 to R79). -/

namespace Sys2Proof.Machine

/-! ### The operations' values -/

theorem byte_ofNat_mod (n : Nat) : BitVec.ofNat 8 (n % 256) = BitVec.ofNat 8 n :=
  BitVec.eq_of_toNat_eq (by simp)

/-- ADD's byte, with the wrap written out (R69, D1). -/
theorem aluAdd_eq (u v : Byte) : aluAdd u v = BitVec.ofNat 8 ((u.toNat + v.toNat) % 256) :=
  (byte_ofNat_mod _).symm

/-- MUL's byte, with the wrap written out (R71, D1). -/
theorem aluMul_eq (u v : Byte) : aluMul u v = BitVec.ofNat 8 ((u.toNat * v.toNat) % 256) :=
  (byte_ofNat_mod _).symm

/-- SUB's byte, with the borrow written out (R70, D1). -/
theorem aluSub_eq (u v : Byte) : aluSub u v = BitVec.ofNat 8
    (if u.toNat < v.toNat then u.toNat + 256 - v.toNat else u.toNat - v.toNat) := by
  have hu := u.isLt
  have hv := v.isLt
  apply BitVec.eq_of_toNat_eq
  rw [aluSub, BitVec.toNat_ofInt, BitVec.toNat_ofNat]
  split <;> omega

theorem toNat_aluDiv (u v : Byte) : (aluDiv u v).toNat = u.toNat / v.toNat := by
  rw [aluDiv, BitVec.toNat_ofNat]
  exact Nat.mod_eq_of_lt ((Nat.div_le_self _ _).trans_lt u.isLt)

/-! ### The block -/

/-- Settles O40: the block's equations hold by definition; what is left are the values written. -/
theorem aluComputesFiveOperations : Obligations.AluComputesFiveOperations := by
  refine fun a b s => ⟨?_, ?_, ?_, fun hb => ⟨_, alu_div_of_ne_zero hb a, ?_, ?_⟩, rfl⟩
  · rw [← aluAdd_eq]
    rfl
  · rw [← aluSub_eq]
    rfl
  · rw [← aluMul_eq]
    rfl
  · rw [toNat_aluDiv]
    exact Nat.div_mul_le_self _ _
  · rw [toNat_aluDiv, Nat.mul_comm]
    exact Nat.lt_mul_div_succ _ (Nat.pos_of_ne_zero hb)

/-- Settles O41: the two raises by definition, and no other select raises. -/
theorem aluRaisesOnlyItsTwoFaults : Obligations.AluRaisesOnlyItsTwoFaults := by
  refine ⟨fun a b s hb => alu_div_zero hb a, fun _ _ _ _ => rfl, fun sel a b s e h => ?_⟩
  rcases sel with (_ | _ | _ | _ | _) | n
  case op.add | op.sub | op.mul | op.cmp => cases h
  case other => exact .inr ⟨n, rfl⟩
  case op.div =>
    refine .inl ⟨rfl, ?_⟩
    by_contra hb
    rw [alu_div_of_ne_zero hb] at h
    cases h

/-! ### ADD, MUL and CMP -/

/-- With two legal indices an ALU instruction is the ALU's effect and the advance by 3 (R77 to R79). -/
theorem complete_alu_of_lt {a b : Byte} (ha : a.toNat < 8) (hb : b.toNat < 8) {h : Handler}
    {o : AluSelect} {s u : State} (hh : h = .add ∨ h = .mul ∨ h = .cmp)
    (halu : alu o ⟨a.toNat, ha⟩ ⟨b.toNat, hb⟩ s = .ok u) (hpc : u.pc = s.pc) :
    complete h s (regIndex a >>= fun i => regIndex b >>= fun j => alu o i j s) =
      .next (setPc (s.pc + 3) u) := by
  rw [regIndex_ok ha, ok_bind, regIndex_ok hb, ok_bind, halu, complete_ok, ← hpc]
  rcases hh with rfl | rfl | rfl <;> rfl

theorem exec_add_of_lt {a b : Byte} (ha : a.toNat < 8) (hb : b.toNat < 8) (s : State) :
    exec (.add a b) s = .next (setPc (s.pc + 3) (writeReg ⟨a.toNat, ha⟩
      (aluAdd (readReg ⟨a.toNat, ha⟩ s) (readReg ⟨b.toNat, hb⟩ s)) s)) :=
  complete_alu_of_lt ha hb (.inl rfl) (alu_add _ _ s) rfl

theorem exec_mul_of_lt {a b : Byte} (ha : a.toNat < 8) (hb : b.toNat < 8) (s : State) :
    exec (.mul a b) s = .next (setPc (s.pc + 3) (writeReg ⟨a.toNat, ha⟩
      (aluMul (readReg ⟨a.toNat, ha⟩ s) (readReg ⟨b.toNat, hb⟩ s)) s)) :=
  complete_alu_of_lt ha hb (.inr (.inl rfl)) (alu_mul _ _ s) rfl

theorem exec_cmp_of_lt {a b : Byte} (ha : a.toNat < 8) (hb : b.toNat < 8) (s : State) :
    exec (.cmp a b) s = .next { s with
      fl := compareFlags (readReg ⟨a.toNat, ha⟩ s) (readReg ⟨b.toNat, hb⟩ s)
      pc := s.pc + 3 } :=
  complete_alu_of_lt ha hb (.inr (.inr rfl)) (alu_cmp _ _ s) rfl

/-- The second index is looked at once the first is legal. -/
theorem complete_second_regIndex_error {a b : Byte} (ha : a.toNat < 8) (hb : 7 < b.toNat)
    (h : Handler) (s : State) (f : RegIndex → RegIndex → Except Raise State) :
    complete h s (regIndex a >>= fun i => regIndex b >>= f i) =
      raised s .addressOutOfRange b.toNat := by
  rw [regIndex_ok ha, ok_bind]
  exact complete_regIndex_error hb h s _

/-- Settles O21: `exec_add_of_lt` with the sum's wrap written out; the indices are checked in order. -/
theorem addWritesSumModulo256 : Obligations.AddWritesSumModulo256 := by
  refine ⟨fun a b => runsAs_encode (.add a b), fun s a b ha hb => ?_,
    fun s _ _ ha => complete_regIndex_error ha .add s _,
    fun s _ _ ha hb => complete_second_regIndex_error ha hb .add s _,
    operandsPastTopRaise_opcode .add⟩
  rw [exec_add_of_lt ha hb, aluAdd_eq]
  rfl

/-- Settles O22: `exec_mul_of_lt` with the product's wrap written out; the indices are checked in
order. -/
theorem mulWritesProductModulo256 : Obligations.MulWritesProductModulo256 := by
  refine ⟨fun a b => runsAs_encode (.mul a b), fun s a b ha hb => ?_,
    fun s _ _ ha => complete_regIndex_error ha .mul s _,
    fun s _ _ ha hb => complete_second_regIndex_error ha hb .mul s _,
    operandsPastTopRaise_opcode .mul⟩
  rw [exec_mul_of_lt ha hb, aluMul_eq]
  rfl

/-- Settles O23: `exec_cmp_of_lt`, whose flag value is the comparison's definition. -/
theorem cmpSetsFlagFromOrder : Obligations.CmpSetsFlagFromOrder :=
  ⟨fun a b => runsAs_encode (.cmp a b), fun s _ _ ha hb => exec_cmp_of_lt ha hb s,
    fun s _ _ ha => complete_regIndex_error ha .cmp s _,
    fun s _ _ ha hb => complete_second_regIndex_error ha hb .cmp s _,
    operandsPastTopRaise_opcode .cmp⟩

end Sys2Proof.Machine
end

section
/-! PROOFS. 43_control.md: JEQ and JNE (R93, R94), the branch after a CMP (R95), and LDI followed by HLT
(vector E3 of 95_test_vectors.md). -/

namespace Sys2Proof.Machine

/-! ### JEQ and JNE with a legal index -/

theorem exec_jeq_of_lt {r : Byte} (hr : r.toNat < 8) (s : State) : exec (.jeq r) s =
    .next (setPc (if equalBit s.fl then (readReg ⟨r.toNat, hr⟩ s).toNat else s.pc + 2) s) := by
  show execJeq r s = _
  rw [execJeq, regIndex_ok hr, ok_bind, pure_eq_ok, complete_ok,
    advance_of_pcMutating (pcMutating_opcode_eq .jeq)]

theorem exec_jne_of_lt {r : Byte} (hr : r.toNat < 8) (s : State) : exec (.jne r) s =
    .next (setPc (if equalBit s.fl then s.pc + 2 else (readReg ⟨r.toNat, hr⟩ s).toNat) s) := by
  show execJne r s = _
  rw [execJne, regIndex_ok hr, ok_bind, pure_eq_ok, complete_ok,
    advance_of_pcMutating (pcMutating_opcode_eq .jne)]

theorem exec_jeq_of_equal {r : Byte} (hr : r.toNat < 8) {s : State} (hb : equalBit s.fl = true) :
    exec (.jeq r) s = .next { s with pc := (s.x[r.toNat]).toNat } := by
  rw [exec_jeq_of_lt hr, if_pos hb]
  rfl

theorem exec_jeq_of_not_equal {r : Byte} (hr : r.toNat < 8) {s : State}
    (hb : equalBit s.fl = false) : exec (.jeq r) s = .next { s with pc := s.pc + 2 } := by
  rw [exec_jeq_of_lt hr, if_neg (by simp [hb])]
  rfl

theorem exec_jne_of_not_equal {r : Byte} (hr : r.toNat < 8) {s : State}
    (hb : equalBit s.fl = false) :
    exec (.jne r) s = .next { s with pc := (s.x[r.toNat]).toNat } := by
  rw [exec_jne_of_lt hr, if_neg (by simp [hb])]
  rfl

theorem exec_jne_of_equal {r : Byte} (hr : r.toNat < 8) {s : State} (hb : equalBit s.fl = true) :
    exec (.jne r) s = .next { s with pc := s.pc + 2 } := by
  rw [exec_jne_of_lt hr, if_pos hb]
  rfl

/-- Settles O29: the branch by bit 0 of FL, after the index check. -/
theorem jeqJumpsWhenEqualBitSet : Obligations.JeqJumpsWhenEqualBitSet :=
  ⟨fun r => runsAs_encode (.jeq r), fun _ _ hr hb => exec_jeq_of_equal hr hb,
    fun _ _ hr hb => exec_jeq_of_not_equal hr hb,
    fun s _ hr => complete_regIndex_error hr .jeq s _, operandsPastTopRaise_opcode .jeq⟩

/-- Settles O30: the branch by bit 0 of FL, after the index check. -/
theorem jneJumpsWhenEqualBitClear : Obligations.JneJumpsWhenEqualBitClear :=
  ⟨fun r => runsAs_encode (.jne r), fun _ _ hr hb => exec_jne_of_not_equal hr hb,
    fun _ _ hr hb => exec_jne_of_equal hr hb,
    fun s _ hr => complete_regIndex_error hr .jne s _, operandsPastTopRaise_opcode .jne⟩

/-! ### A branch after CMP -/

/-- Settles O47: CMP leaves the registers, and a bit 0 that says whether the two were equal. -/
theorem branchesFollowComparison : Obligations.BranchesFollowComparison := by
  intro s t a b r ha hb hr h
  obtain rfl := Host.Outcome.next.inj ((exec_cmp_of_lt ha hb s).symm.trans h)
  have hbit := equalBit_compareFlags (s.x[a.toNat]) (s.x[b.toNat])
  refine ⟨fun hne => ?_, fun heq => ?_⟩
  · have hclear := hbit.trans (decide_eq_false hne)
    exact ⟨exec_jeq_of_not_equal hr hclear, exec_jne_of_not_equal hr hclear⟩
  · have hset := hbit.trans (decide_eq_true heq)
    exact ⟨exec_jeq_of_equal hr hset, exec_jne_of_equal hr hset⟩

/-! ### Two instructions in a row -/

theorem BytesAtPc.left {s : State} {bs cs : List Byte} (h : BytesAtPc s (bs ++ cs)) :
    BytesAtPc s bs := by
  obtain ⟨hlen, hbytes⟩ := h
  rw [List.length_append] at hlen
  refine ⟨by omega, fun k hk => ?_⟩
  rw [hbytes k (by rw [List.length_append]; omega), List.getElem_append_left hk]

/-- Past the first bytes, with memory as it was, the rest stand at `pc`. -/
theorem BytesAtPc.right {s t : State} {bs cs : List Byte} (h : BytesAtPc s (bs ++ cs))
    (hmem : t.mem = s.mem) (hpc : t.pc = s.pc + bs.length) : BytesAtPc t cs := by
  obtain ⟨hlen, hbytes⟩ := h
  rw [List.length_append] at hlen
  refine ⟨by omega, fun k hk => ?_⟩
  have hread := hbytes (bs.length + k) (by rw [List.length_append]; omega)
  rw [hmem, hpc, Nat.add_assoc, hread, List.getElem_append_right (by omega)]
  simp only [Nat.add_sub_cancel_left]

/-- Settles O48: LDI advances to HLT's byte, with memory, `running` and the fault record as they were. -/
theorem ldiThenHltHoldsValue : Obligations.LdiThenHltHoldsValue := by
  intro s r imm hr hrun hbytes
  have happ : BytesAtPc s (encode (.ldi r imm) ++ encode .hlt) := hbytes
  have hldi := (runsAs_encode (.ldi r imm) s hrun happ.left).trans (exec_ldi_of_lt hr s)
  have hhlt := (runsAs_encode .hlt (setPc (s.pc + 3) (writeReg ⟨r.toNat, hr⟩ imm s)) hrun
    (happ.right rfl rfl)).trans (exec_hlt_eq _)
  exact ⟨_, _, hldi, hhlt, readReg_writeReg_same ⟨r.toNat, hr⟩ imm s, rfl, rfl, rfl⟩

end Sys2Proof.Machine
end

section
/-! PROOFS. 42_stack.md and 43_control.md: PUSH, POP, CALL and RET (R80 to R84, R89, R90), and what they
make of the stack in memory (R47, R85, R86, R91). -/

namespace Sys2Proof.Machine

/-! ### The pointer's arithmetic -/

theorem toNat_sub_one {sp : Byte} (h : 1 ≤ sp.toNat) : (sp - 1#8).toNat = sp.toNat - 1 :=
  BitVec.toNat_sub_of_le (BitVec.le_def.2 h)

theorem toNat_add_one {sp : Byte} (h : sp.toNat < 255) : (sp + 1#8).toNat = sp.toNat + 1 :=
  BitVec.toNat_add_of_lt (show sp.toNat + 1 < 2 ^ 8 by omega)

theorem one_le_toNat_iff {sp : Byte} : 1 ≤ sp.toNat ↔ sp ≠ 0#8 :=
  Nat.one_le_iff_ne_zero.trans (BitVec.toNat_inj (y := 0#8)).not

theorem adjustStack_dec_of_pos {sp : Byte} (h : 1 ≤ sp.toNat) :
    adjustStack sp (-1) = .ok (sp - 1#8) := by
  rw [adjustStack_dec, if_neg (one_le_toNat_iff.1 h)]

/-- Below the underflow bound an increment stays in range (R80, R81). -/
theorem ne_top_of_lt {sp : Byte} (h : sp.toNat < 0xF4) : sp ≠ 0xFF#8 := by
  rintro rfl
  exact absurd h (by decide)

theorem adjustStack_inc_of_lt {sp : Byte} (h : sp.toNat < 0xF4) :
    adjustStack sp 1 = .ok (sp + 1#8) := by
  rw [adjustStack_inc, if_neg (ne_top_of_lt h)]

/-! ### PUSH and CALL with a legal index -/

theorem exec_push_of_pos {r : Byte} (hr : r.toNat < 8) {s : State} (hsp : 1 ≤ (s.x[7]).toNat) :
    exec (.push r) s = .next { s with
      x := s.x.set 7 (s.x[7] - 1#8)
      mem := s.mem.write ((s.x[7]).toNat - 1) ((s.x.set 7 (s.x[7] - 1#8))[r.toNat])
      pc := s.pc + 2 } := by
  show execPush r s = _
  have hdec : adjustStack (stackPointer s) (-1) = .ok (s.x[7] - 1#8) := adjustStack_dec_of_pos hsp
  rw [execPush, regIndex_ok hr, ok_bind, hdec, ok_bind, memWrite_byte, complete_ok,
    toNat_sub_one hsp]
  rfl

theorem exec_call_of_pos {r : Byte} (hr : r.toNat < 8) {s : State} (hsp : 1 ≤ (s.x[7]).toNat)
    (hpc : s.pc + 2 ≤ 255) :
    exec (.call r) s = .next { s with
      x := s.x.set 7 (s.x[7] - 1#8)
      mem := s.mem.write ((s.x[7]).toNat - 1) (BitVec.ofNat 8 (s.pc + 2))
      pc := ((s.x.set 7 (s.x[7] - 1#8))[r.toNat]).toNat } := by
  show execCall r s = _
  have hdec : adjustStack (stackPointer s) (-1) = .ok (s.x[7] - 1#8) := adjustStack_dec_of_pos hsp
  rw [execCall, regIndex_ok hr, ok_bind, hdec, ok_bind, returnAddress_ok hpc, ok_bind,
    memWrite_byte, ok_bind, pure_eq_ok, complete_ok, toNat_sub_one hsp]
  rfl

/-- PUSH and CALL decrement before anything else they do with a legal index (R80, D7). -/
theorem complete_dec_error {r : Byte} (hr : r.toNat < 8) {s : State} (h0 : s.x[7] = 0#8)
    (h : Handler) (f : RegIndex → Byte → Except Raise State) :
    complete h s (regIndex r >>= fun i => adjustStack (stackPointer s) (-1) >>= f i) =
      raised s .addressOutOfRange (-1) := by
  have hdec : adjustStack (stackPointer s) (-1) = .error ⟨.addressOutOfRange, -1⟩ :=
    (adjustStack_dec _).trans (if_pos h0)
  rw [regIndex_ok hr, ok_bind, hdec, error_bind, complete_error, raised]

theorem exec_call_return_address_error {r : Byte} (hr : r.toNat < 8) {s : State}
    (hsp : 1 ≤ (s.x[7]).toNat) (hpc : 255 < s.pc + 2) :
    exec (.call r) s = raised s .addressOutOfRange ((s.pc + 2 : Nat) : Int) := by
  show execCall r s = _
  have hdec : adjustStack (stackPointer s) (-1) = .ok (s.x[7] - 1#8) := adjustStack_dec_of_pos hsp
  rw [execCall, regIndex_ok hr, ok_bind, hdec, ok_bind, returnAddress_error hpc, error_bind,
    complete_error, raised]

/-- Settles O24: `exec_push_of_pos`, and the raises of the checks before the store. -/
theorem pushStoresAtDecrementedPointer : Obligations.PushStoresAtDecrementedPointer :=
  ⟨fun r => runsAs_encode (.push r), fun _ _ hr hsp => exec_push_of_pos hr hsp,
    fun s _ hr => complete_regIndex_error hr .push s _,
    fun _ _ hr h0 => complete_dec_error hr h0 .push _, operandsPastTopRaise_opcode .push⟩

/-- Settles O26: `exec_call_of_pos`, and the raises of the checks before the store, in their order. -/
theorem callPushesReturnAddressAndJumps : Obligations.CallPushesReturnAddressAndJumps :=
  ⟨fun r => runsAs_encode (.call r), fun _ _ hr hsp hpc => exec_call_of_pos hr hsp hpc,
    fun s _ hr => complete_regIndex_error hr .call s _,
    fun _ _ hr h0 => complete_dec_error hr h0 .call _,
    fun _ _ hr hsp hpc => exec_call_return_address_error hr hsp hpc,
    operandsPastTopRaise_opcode .call⟩

/-! ### POP and RET -/

/-- POP above the underflow bound is its load followed by the increment of `x[7]` as it stands then,
in `t`. -/
theorem exec_pop_eq_complete {r : Byte} (hr : r.toNat < 8) {s t : State}
    (hsp : (s.x[7]).toNat < 0xF4)
    (ht : t = writeReg ⟨r.toNat, hr⟩ (s.mem.read (s.x[7]).toNat) s) :
    exec (.pop r) s = complete .pop s
      (adjustStack t.x[7] 1 >>= fun n => .ok (writeReg Config.spIndex n t)) := by
  subst ht
  show execPop r s = _
  have hok : checkUnderflow (stackPointer s) = .ok () := checkUnderflow_ok hsp
  rw [execPop, regIndex_ok hr, ok_bind]
  simp only [hok, ok_bind, memRead_byte, pure_eq_ok]
  rfl

theorem exec_pop_of_lt {r : Byte} (hr : r.toNat < 8) {s t : State} (hsp : (s.x[7]).toNat < 0xF4)
    (ht : t = writeReg ⟨r.toNat, hr⟩ (s.mem.read (s.x[7]).toNat) s) (hff : t.x[7] ≠ 0xFF#8) :
    exec (.pop r) s = .next (setPc (s.pc + 2) (writeReg Config.spIndex (t.x[7] + 1#8) t)) := by
  rw [exec_pop_eq_complete hr hsp ht, adjustStack_inc, if_neg hff, ok_bind, complete_ok, ht]
  rfl

theorem exec_pop_underflow {r : Byte} (hr : r.toNat < 8) {s : State}
    (hsp : 0xF4 ≤ (s.x[7]).toNat) : exec (.pop r) s = raised s .stackUnderflow (s.x[7]).toNat := by
  show execPop r s = _
  have herr : checkUnderflow (stackPointer s) = .error ⟨.stackUnderflow, (s.x[7]).toNat⟩ :=
    checkUnderflow_error hsp
  rw [execPop, regIndex_ok hr, ok_bind]
  simp only [herr, error_bind, complete_error, raised]

/-- A POP of another register than r7 increments the pointer it found. -/
theorem exec_pop_of_ne_seven {r : Byte} (hr : r.toNat < 8) (h7 : r.toNat ≠ 7) {s : State}
    (hsp : (s.x[7]).toNat < 0xF4) :
    exec (.pop r) s = .next { s with
      x := (s.x.set r.toNat (s.mem.read (s.x[7]).toNat)).set 7 (s.x[7] + 1#8)
      pc := s.pc + 2 } := by
  have hkept : (writeReg ⟨r.toNat, hr⟩ (s.mem.read (s.x[7]).toNat) s).x[7] = s.x[7] :=
    getElem_x_writeReg (i := ⟨r.toNat, hr⟩) (by decide) h7.symm _ s
  rw [exec_pop_of_lt hr hsp rfl (hkept.symm ▸ ne_top_of_lt hsp), hkept]
  rfl

/-- The load of POP r7 leaves the popped byte in `x[7]`. -/
theorem exec_pop_seven {s : State} (hsp : (s.x[7]).toNat < 0xF4)
    (hff : s.mem.read (s.x[7]).toNat ≠ 0xFF#8) :
    exec (.pop 7#8) s = .next { s with
      x := s.x.set 7 (s.mem.read (s.x[7]).toNat + 1#8)
      pc := s.pc + 2 } := by
  have hload : (writeReg Config.spIndex (s.mem.read (s.x[7]).toNat) s).x[7] =
      s.mem.read (s.x[7]).toNat := readReg_writeReg_same Config.spIndex _ s
  rw [exec_pop_of_lt (by decide) hsp (t := writeReg Config.spIndex _ s) rfl (by rwa [hload]), hload]
  simp only [setPc, writeReg, Vector.set_set]
  rfl

theorem exec_pop_seven_error {s : State} (hsp : (s.x[7]).toNat < 0xF4)
    (hff : s.mem.read (s.x[7]).toNat = 0xFF#8) :
    exec (.pop 7#8) s = raised s .addressOutOfRange 256 := by
  have hload : (writeReg Config.spIndex (s.mem.read (s.x[7]).toNat) s).x[7] =
      s.mem.read (s.x[7]).toNat := readReg_writeReg_same Config.spIndex _ s
  rw [exec_pop_eq_complete (by decide) hsp (t := writeReg Config.spIndex _ s) rfl, hload,
    adjustStack_inc, if_pos hff, error_bind, complete_error, raised]

/-- Settles O25: the increment acts on the pointer, or for r7 on the popped byte; the underflow check
comes after the index check and before the load. -/
theorem popLoadsTopAndIncrements : Obligations.PopLoadsTopAndIncrements :=
  ⟨fun r => runsAs_encode (.pop r), fun _ _ hr h7 hsp => exec_pop_of_ne_seven hr h7 hsp,
    fun _ hsp hff => exec_pop_seven hsp hff, fun s _ hr => complete_regIndex_error hr .pop s _,
    fun _ _ hr hsp => exec_pop_underflow hr hsp, fun _ hsp hff => exec_pop_seven_error hsp hff,
    operandsPastTopRaise_opcode .pop⟩

theorem exec_ret_of_lt {s : State} (hsp : (s.x[7]).toNat < 0xF4) :
    exec .ret s = .next { s with
      pc := (s.mem.read (s.x[7]).toNat).toNat
      x := s.x.set 7 (s.x[7] + 1#8) } := by
  show execRet s = _
  have hok : checkUnderflow (stackPointer s) = .ok () := checkUnderflow_ok hsp
  have hinc : adjustStack (stackPointer s) 1 = .ok (s.x[7] + 1#8) :=
    adjustStack_inc_of_lt hsp
  simp only [execRet, hok, hinc, ok_bind, memRead_byte, pure_eq_ok, complete_ok]
  rfl

theorem exec_ret_underflow {s : State} (hsp : 0xF4 ≤ (s.x[7]).toNat) :
    exec .ret s = raised s .stackUnderflow (s.x[7]).toNat := by
  show execRet s = _
  have herr : checkUnderflow (stackPointer s) = .error ⟨.stackUnderflow, (s.x[7]).toNat⟩ :=
    checkUnderflow_error hsp
  simp only [execRet, herr, error_bind, complete_error, raised]

/-- Settles O27: on either side of the underflow bound. -/
theorem retPopsIntoPc : Obligations.RetPopsIntoPc :=
  ⟨runsAs_encode .ret, fun _ hsp => exec_ret_of_lt hsp, fun _ hsp => exec_ret_underflow hsp⟩

/-! ### What a stack instruction that took no fault has done

In terms of the pointers before and after: the one address each of the four stores to or loads from. -/

section completed
variable {s t : State} {r : Byte} (ht : t.fault = none)
include ht

theorem exec_push_completed (h : exec (.push r) s = .next t) : ∃ hr : r.toNat < 8,
    (t.x[7]).toNat + 1 = (s.x[7]).toNat ∧ t.mem = s.mem.write (t.x[7]).toNat t.x[r.toNat] := by
  rcases exec_cases h with ⟨u, ⟨i, hi, h0, -⟩, -⟩ | ⟨e, -, rfl⟩
  · have hr : r.toNat < 8 := (regIndex_eq_ok r i).1 hi ▸ i.isLt
    have hsp : 1 ≤ (s.x[7]).toNat := one_le_toNat_iff.2 h0
    obtain rfl := Host.Outcome.next.inj ((exec_push_of_pos hr hsp).symm.trans h)
    refine ⟨hr, ?_⟩
    simp only [Vector.getElem_set_self, toNat_sub_one hsp, and_true]
    omega
  · cases ht

theorem exec_call_completed (h : exec (.call r) s = .next t) :
    (t.x[7]).toNat + 1 = (s.x[7]).toNat ∧ s.pc + 2 ≤ 255 ∧
      t.mem = s.mem.write (t.x[7]).toNat (BitVec.ofNat 8 (s.pc + 2)) := by
  rcases exec_cases h with ⟨u, ⟨i, hi, h0, hpc, -⟩, -⟩ | ⟨e, -, rfl⟩
  · have hr : r.toNat < 8 := (regIndex_eq_ok r i).1 hi ▸ i.isLt
    have hsp : 1 ≤ (s.x[7]).toNat := one_le_toNat_iff.2 h0
    obtain rfl := Host.Outcome.next.inj ((exec_call_of_pos hr hsp hpc).symm.trans h)
    simp only [Vector.getElem_set_self, toNat_sub_one hsp, hpc, and_true]
    omega
  · cases ht

theorem exec_pop_completed (h7 : r.toNat ≠ 7) (h : exec (.pop r) s = .next t) :
    ∃ hr : r.toNat < 8, (s.x[7]).toNat < 0xF4 ∧ (t.x[7]).toNat = (s.x[7]).toNat + 1 ∧
      t.mem = s.mem ∧ t.x[r.toNat] = s.mem.read (s.x[7]).toNat := by
  rcases exec_cases h with ⟨u, ⟨i, hi, hlt, -⟩, -⟩ | ⟨e, -, rfl⟩
  · have hr : r.toNat < 8 := (regIndex_eq_ok r i).1 hi ▸ i.isLt
    have hsp : (s.x[7]).toNat < 0xF4 := hlt
    obtain rfl := Host.Outcome.next.inj ((exec_pop_of_ne_seven hr h7 hsp).symm.trans h)
    refine ⟨hr, hsp, ?_, rfl, ?_⟩
    · simp only [Vector.getElem_set_self]
      exact toNat_add_one (by omega)
    · simp only [Vector.getElem_set_ne _ _ h7.symm, Vector.getElem_set_self]
  · cases ht

theorem exec_ret_completed (h : exec .ret s = .next t) :
    (s.x[7]).toNat < 0xF4 ∧ (t.x[7]).toNat = (s.x[7]).toNat + 1 ∧ t.mem = s.mem ∧
      t.pc = (s.mem.read (s.x[7]).toNat).toNat := by
  rcases exec_cases h with ⟨u, ⟨hlt, -⟩, -⟩ | ⟨e, -, rfl⟩
  · have hsp : (s.x[7]).toNat < 0xF4 := hlt
    obtain rfl := Host.Outcome.next.inj ((exec_ret_of_lt hsp).symm.trans h)
    refine ⟨hsp, ?_, rfl, rfl⟩
    simp only [Vector.getElem_set_self]
    exact toNat_add_one (by omega)
  · cases ht

end completed

/-! ### The stack as a last-in first-out list -/

/-- Two states whose pointers are one apart and whose memories agree above the lower one: the lower
state's live stack is the higher one's with one byte in front. -/
theorem stackBytes_eq_cons {s t : State} (hsp : (s.x[7]).toNat < 0xF4)
    (hnext : (t.x[7]).toNat = (s.x[7]).toNat + 1)
    (hmem : ∀ a, (t.x[7]).toNat ≤ a → t.mem.read a = s.mem.read a) :
    stackBytes s = s.mem.read (s.x[7]).toNat :: stackBytes t := by
  have hlen : 0xF4 - (s.x[7]).toNat = (0xF4 - (t.x[7]).toNat) + 1 := by omega
  rw [stackBytes, hlen, List.range_succ_eq_map, List.map_cons, List.map_map, Nat.add_zero, stackBytes]
  refine congrArg _ (List.map_congr_left fun k _ => ?_)
  rw [hmem _ (Nat.le_add_right _ k), hnext, Function.comp_apply, Nat.succ_eq_one_add, Nat.add_assoc]

/-- A store below the live stack puts its byte in front. -/
theorem stackBytes_of_store {s t : State} {v : Byte} (hm : s.mem.wf = true)
    (hsp : (s.x[7]).toNat ≤ 0xF4) (hnext : (t.x[7]).toNat + 1 = (s.x[7]).toNat)
    (hmem : t.mem = s.mem.write (t.x[7]).toNat v) : stackBytes t = v :: stackBytes s := by
  rw [stackBytes_eq_cons (s := t) (t := s) (by omega) hnext.symm, hmem,
    Memory.read_write_same _ v s.mem hm]
  intro a ha
  rw [hmem, Memory.read_write_other _ a v (by omega)]

/-- Settles O45: PUSH and CALL store one byte below the live stack; POP and RET move past the front
one. -/
theorem stackIsLastInFirstOut : Obligations.StackIsLastInFirstOut := by
  refine fun s t hm hsp ht => ⟨fun r _ h => ?_, fun r _ h7 h => ?_, fun r h => ?_, fun h => ?_⟩
  · obtain ⟨_, hnext, hmem⟩ := exec_push_completed ht h
    exact stackBytes_of_store hm hsp hnext hmem
  · obtain ⟨_, hlt, hnext, hmem, hx⟩ := exec_pop_completed ht h7 h
    rw [hx]
    exact stackBytes_eq_cons hlt hnext fun a _ => by rw [hmem]
  · obtain ⟨hnext, -, hmem⟩ := exec_call_completed ht h
    exact stackBytes_of_store hm hsp hnext hmem
  · obtain ⟨hlt, hnext, hmem, hpc⟩ := exec_ret_completed ht h
    have hbyte := (s.mem.read (s.x[7]).toNat).isLt
    rw [hpc, BitVec.ofNat_toNat, BitVec.setWidth_eq]
    exact ⟨stackBytes_eq_cons hlt hnext fun a _ => by rw [hmem], by omega⟩

/-! ### The depth of the stack -/

/-- One stack instruction moves the pointer down by its push or up by its pop, and never above 0xF4. -/
theorem exec_stackOp_pointer {i : Instr} {s t : State} (hi : isStackOp i = true)
    (h : exec i s = .next t) (ht : t.fault = none) (hsp : (s.x[7]).toNat ≤ 0xF4) :
    (t.x[7]).toNat ≤ 0xF4 ∧ (t.x[7]).toNat + (if isPush i then 1 else 0) =
      (s.x[7]).toNat + (if isPop i then 1 else 0) := by
  cases i with
  | ldi | prn | mul | hlt | add | cmp | jmp | jne | jeq => cases hi
  | push r =>
    obtain ⟨_, hnext, -⟩ := exec_push_completed ht h
    simp only [isPush, isPop]
    exact ⟨by omega, hnext⟩
  | call r =>
    obtain ⟨hnext, -⟩ := exec_call_completed ht h
    simp only [isPush, isPop]
    exact ⟨by omega, hnext⟩
  | pop r =>
    obtain ⟨_, hlt, hnext, -⟩ := exec_pop_completed ht (by simpa [isStackOp] using hi) h
    simp only [isPush, isPop]
    exact ⟨by omega, hnext⟩
  | ret =>
    obtain ⟨hlt, hnext, -⟩ := exec_ret_completed ht h
    simp only [isPush, isPop]
    exact ⟨by omega, hnext⟩

theorem execAll_cons_eq_some {i : Instr} {is : List Instr} {s t : State}
    (h : execAll (i :: is) s = some t) :
    ∃ u, exec i s = .next u ∧ u.fault = none ∧ execAll is u = some t := by
  obtain ⟨u, hu⟩ := exec_is_next i s
  simp only [execAll, hu] at h
  split at h
  · exact ⟨u, hu, ‹_›, h⟩
  · cases h

/-- Over a sequence, the pointer and the pushes balance the pointer before and the pops. -/
theorem execAll_pointer : ∀ {is : List Instr} {s t : State}, (∀ i ∈ is, isStackOp i = true) →
    (s.x[7]).toNat ≤ 0xF4 → execAll is s = some t → (t.x[7]).toNat ≤ 0xF4 ∧
      (t.x[7]).toNat + is.countP isPush = (s.x[7]).toNat + is.countP isPop
  | [], s, t, _, hsp, h => by
    obtain rfl := Option.some.inj h
    exact ⟨hsp, rfl⟩
  | i :: is, s, t, hops, hsp, h => by
    obtain ⟨u, hu, hf, hrest⟩ := execAll_cons_eq_some h
    obtain ⟨hhead, htail⟩ := List.forall_mem_cons.1 hops
    obtain ⟨hle, hstep⟩ := exec_stackOp_pointer hhead hu hf hsp
    obtain ⟨hle', hsum⟩ := execAll_pointer htail hle hrest
    rw [List.countP_cons, List.countP_cons]
    exact ⟨hle', by omega⟩

/-- Settles O46: from 0xF4, `execAll_pointer` gives the pointer, and the live stack is what lies between
it and 0xF4. -/
theorem stackDepthIsPushesMinusPops : Obligations.StackDepthIsPushesMinusPops := by
  intro is s t hops hs h
  have hstart : (s.x[7]).toNat = 0xF4 := by rw [hs]; rfl
  obtain ⟨hle, hsum⟩ := execAll_pointer hops hstart.le h
  have hlen : (stackBytes t).length = 0xF4 - (t.x[7]).toNat := by simp [stackBytes]
  exact ⟨by omega, by omega, by omega⟩

/-! ### Pairs of stack instructions -/

theorem Memory.read_write {m : Memory} (hm : m.wf = true) (a b : Nat) (v : Byte) :
    (m.write a v).read b = if b = a then v else m.read b := by
  split
  · subst b
    exact Memory.read_write_same a v m hm
  · exact Memory.read_write_other a b v ‹_› m

/-- Where the top already holds the register's value, POP's load changes nothing and only the pointer
moves; r7 is no exception, for its value is then its own address. -/
theorem exec_pop_of_top_eq {r : Byte} (hr : r.toNat < 8) {s : State} (hsp : (s.x[7]).toNat < 0xF4)
    (htop : s.mem.read (s.x[7]).toNat = s.x[r.toNat]) :
    exec (.pop r) s = .next { s with x := s.x.set 7 (s.x[7] + 1#8), pc := s.pc + 2 } := by
  have hload : writeReg ⟨r.toNat, hr⟩ (s.mem.read (s.x[7]).toNat) s = s := by
    simp only [htop, writeReg, Vector.set_getElem_self]
  exact exec_pop_of_lt hr hsp hload.symm (ne_top_of_lt hsp)

/-- Settles O43: the byte PUSH stores is the register's value after the decrement, so POP restores the
pointer and writes nothing else. -/
theorem pushThenPopRestores : Obligations.PushThenPopRestores := by
  intro s r hr hm hpos hle
  refine ⟨_, _, exec_push_of_pos hr hpos, exec_pop_of_top_eq hr ?_ ?_, ?_, ?_⟩
  · simp only [Vector.getElem_set_self, toNat_sub_one hpos]
    omega
  · simp only [Vector.getElem_set_self, toNat_sub_one hpos]
    exact Memory.read_write_same _ _ s.mem hm
  · simp only [Vector.getElem_set_self, BitVec.sub_add_cancel, Vector.set_set,
      Vector.set_getElem_self]
  · simp only [Memory.read_write_same _ _ s.mem hm, Vector.getElem_set, eq_comm]

/-- Settles O44: RET finds CALL's return address, a byte because CALL completed, and its increment
undoes the decrement. -/
theorem retResumesAfterCall : Obligations.RetResumesAfterCall := by
  intro s t u r hm hle h ht hsp htop
  obtain ⟨hnext, hpc, hmem⟩ := exec_call_completed ht h
  have hlt : (u.x[7]).toNat < 0xF4 := by rw [hsp]; omega
  refine ⟨_, exec_ret_of_lt hlt, ?_, ?_⟩
  · show (u.mem.read (u.x[7]).toNat).toNat = s.pc + 2
    rw [htop, hmem, Memory.read_write_same _ _ s.mem hm, BitVec.toNat_ofNat,
      Nat.mod_eq_of_lt (by omega)]
  · refine BitVec.eq_of_toNat_eq ?_
    rw [Vector.getElem_set_self, toNat_add_one (by omega), hsp, hnext]

/-- Settles O51: the next fetch reads memory as the store left it; the instruction ran with the operand
that stood at `pc + 1` before. -/
theorem storedByteIsFetchedNext : Obligations.StoredByteIsFetchedNext := by
  intro s t r hr k hrun hm hstep ht hk hpc
  rw [getElem?_fetchWindow hk hpc]
  refine ⟨fun hbytes => ?_, fun hbytes => ?_⟩
  · have hx : exec (.push r) s = .next t := (runsAs_encode (.push r) s hrun hbytes) ▸ hstep
    obtain ⟨_, -, hmem⟩ := exec_push_completed ht hx
    rw [hmem, Memory.read_write hm]
  · have hx : exec (.call r) s = .next t := (runsAs_encode (.call r) s hrun hbytes) ▸ hstep
    obtain ⟨-, -, hmem⟩ := exec_call_completed ht hx
    rw [hmem, Memory.read_write hm]

end Sys2Proof.Machine
end
